-- ==== Sys2Proof/Word.lean ====
section
/-! DEFINITION. The widths of the spec's values (00_scope.md R6, R7; 30_encoding.md R53, R54): bytes, 16-bit words,
4-bit register indices and nibbles, 12-bit addresses. All are unsigned (R7). -/

namespace Sys2Proof

/-- An 8-bit value: a memory cell, a register V0..VF, a timer, an immediate `kk`. -/
abbrev Byte := BitVec 8

/-- A 16-bit value: an instruction word, `pc`, `I`, a return address. -/
abbrev Word := BitVec 16

/-- A 4-bit slice of an instruction word (R53). -/
abbrev Nibble := BitVec 4

/-- A register index `x` or `y`: 0..15 selects V0..VF (R14, R54). -/
abbrev RegIdx := BitVec 4

/-- A key ordinal 0x0..0xF (R23). -/
abbrev Key := BitVec 4

/-- The 12-bit address field `nnn` (R54). -/
abbrev Addr12 := BitVec 12

end Sys2Proof
end

