-- ==== Sys2Proof/Syntax.lean ====
section
/-! DEFINITION. The instructions: one constructor per row of spec/opcode_table.json, in the table's order, named after
the row's tag (30_encoding.md R67). An instruction carries only the operands its opcode has (R56), so the ignored low
nibble of 5xyn and 9xyn is not an operand (R62). -/

namespace Sys2Proof

inductive Instr where
  /-- 00E0 CLS (R101). -/
  | cls
  /-- 00EE RET (R72). -/
  | ret
  /-- 1nnn JP nnn (R73). -/
  | jump (nnn : Addr12)
  /-- 2nnn CALL nnn (R74). -/
  | call (nnn : Addr12)
  /-- 3xkk SE Vx, kk (R75). -/
  | skipEqImm (x : RegIdx) (kk : Byte)
  /-- 4xkk SNE Vx, kk (R76). -/
  | skipNeImm (x : RegIdx) (kk : Byte)
  /-- 5xyn SE Vx, Vy (R77). -/
  | skipEqReg (x y : RegIdx)
  /-- 6xkk LD Vx, kk (R82). -/
  | loadImm (x : RegIdx) (kk : Byte)
  /-- 7xkk ADD Vx, kk (R83). -/
  | addImm (x : RegIdx) (kk : Byte)
  /-- 8xy0 LD Vx, Vy (R84). -/
  | loadReg (x y : RegIdx)
  /-- 8xy1 OR Vx, Vy (R85). -/
  | or (x y : RegIdx)
  /-- 8xy2 AND Vx, Vy (R86). -/
  | and (x y : RegIdx)
  /-- 8xy3 XOR Vx, Vy (R87). -/
  | xor (x y : RegIdx)
  /-- 8xy4 ADD Vx, Vy (R88). -/
  | addReg (x y : RegIdx)
  /-- 8xy5 SUB Vx, Vy (R89). -/
  | sub (x y : RegIdx)
  /-- 8xy6 SHR Vx, Vy (R90). -/
  | shiftRight (x y : RegIdx)
  /-- 8xy7 SUBN Vx, Vy (R91). -/
  | subN (x y : RegIdx)
  /-- 8xyE SHL Vx, Vy (R92). -/
  | shiftLeft (x y : RegIdx)
  /-- 9xyn SNE Vx, Vy (R78). -/
  | skipNeReg (x y : RegIdx)
  /-- Annn LD I, nnn (R95). -/
  | loadIndex (nnn : Addr12)
  /-- Bnnn JP V0, nnn (R79). -/
  | jumpOffset (nnn : Addr12)
  /-- Cxkk RND Vx, kk (R93). -/
  | random (x : RegIdx) (kk : Byte)
  /-- Dxyn DRW Vx, Vy, n with n in 1..15 (R102); n = 0 is ill formed (R63). -/
  | draw (x y : RegIdx) (n : Nibble)
  /-- Ex9E SKP Vx (R103). -/
  | skipKey (x : RegIdx)
  /-- ExA1 SKNP Vx (R104). -/
  | skipNotKey (x : RegIdx)
  /-- Fx07 LD Vx, DT (R105). -/
  | getDelay (x : RegIdx)
  /-- Fx0A LD Vx, K (R106). -/
  | waitKey (x : RegIdx)
  /-- Fx15 LD DT, Vx (R107). -/
  | setDelay (x : RegIdx)
  /-- Fx18 LD ST, Vx (R108). -/
  | setSound (x : RegIdx)
  /-- Fx1E ADD I, Vx (R96). -/
  | addIndex (x : RegIdx)
  /-- Fx33 LD B, Vx (R97). -/
  | storeBcd (x : RegIdx)
  /-- Fx55 LD [I], Vx (R98). -/
  | storeRegs (x : RegIdx)
  /-- Fx65 LD Vx, [I] (R99). -/
  | loadRegs (x : RegIdx)
  /-- 00Cn, unsupported (R64, R111). -/
  | unsupScrollDown (n : Nibble)
  /-- 00FB, unsupported. -/
  | unsupScrollRight
  /-- 00FC, unsupported. -/
  | unsupScrollLeft
  /-- 00FD, unsupported. -/
  | unsupExit
  /-- 00FE, unsupported. -/
  | unsupLow
  /-- 00FF, unsupported. -/
  | unsupHigh
  /-- Dxy0, unsupported. -/
  | unsupDrawLarge (x y : RegIdx)
  /-- Fx30, unsupported. -/
  | unsupLargeDigit (x : RegIdx)
  /-- Fx75, unsupported. -/
  | unsupSaveFlags (x : RegIdx)
  /-- Fx85, unsupported. -/
  | unsupLoadFlags (x : RegIdx)
  deriving DecidableEq, Repr

/-- The words the decoder classifies as Unsupported (30_encoding.md R64): the ten rows of the table whose class is
`unsupported`. -/
def Instr.unsupported : Instr → Bool
  | .unsupScrollDown _ | .unsupScrollRight | .unsupScrollLeft | .unsupExit | .unsupLow | .unsupHigh
  | .unsupDrawLarge _ _ | .unsupLargeDigit _ | .unsupSaveFlags _ | .unsupLoadFlags _ => true
  | .cls | .ret | .jump _ | .call _ | .skipEqImm _ _ | .skipNeImm _ _ | .skipEqReg _ _ | .loadImm _ _ | .addImm _ _
  | .loadReg _ _ | .or _ _ | .and _ _ | .xor _ _ | .addReg _ _ | .sub _ _ | .shiftRight _ _ | .subN _ _
  | .shiftLeft _ _ | .skipNeReg _ _ | .loadIndex _ | .jumpOffset _ | .random _ _ | .draw _ _ _ | .skipKey _
  | .skipNotKey _ | .getDelay _ | .waitKey _ | .setDelay _ | .setSound _ | .addIndex _ | .storeBcd _ | .storeRegs _
  | .loadRegs _ => false

end Sys2Proof
end

