-- ==== Sys2Proof/WellFormed.lean ====
section
/-! DEFINITION. Which instruction terms stand for a word of the opcode map. Register indices, immediates and addresses
have exactly their field's width (30_encoding.md R54), so the one check left is the sprite length of DRW. -/

namespace Sys2Proof

/-- DRW's length is 1..15: Dxy0 is not DRW but an unsupported word (30_encoding.md R63, 43_display_input_timers.md
R102). Every other term is well formed. -/
def Instr.wellFormed : Instr → Bool
  | .draw _ _ n => n != 0#4
  | .cls | .ret | .jump _ | .call _ | .skipEqImm _ _ | .skipNeImm _ _ | .skipEqReg _ _ | .loadImm _ _ | .addImm _ _
  | .loadReg _ _ | .or _ _ | .and _ _ | .xor _ _ | .addReg _ _ | .sub _ _ | .shiftRight _ _ | .subN _ _
  | .shiftLeft _ _ | .skipNeReg _ _ | .loadIndex _ | .jumpOffset _ | .random _ _ | .skipKey _
  | .skipNotKey _ | .getDelay _ | .waitKey _ | .setDelay _ | .setSound _ | .addIndex _ | .storeBcd _ | .storeRegs _
  | .loadRegs _ | .unsupScrollDown _ | .unsupScrollRight | .unsupScrollLeft | .unsupExit | .unsupLow | .unsupHigh
  | .unsupDrawLarge _ _ | .unsupLargeDigit _ | .unsupSaveFlags _ | .unsupLoadFlags _ => true

end Sys2Proof
end

