-- ==== Sys2Proof/Decode.lean ====
section
/-! DEFINITION. The decoder (30_encoding.md R53 to R66), total on every word and on every list of bytes, and after it
the encoder, written from the same formats (R55). -/

namespace Sys2Proof

/-- Why bytes are no instruction. Who raises it: the decoder. Both are safe: nothing is executed. -/
inductive DecodeFailure where
  /-- The word matches no row of the opcode table (R65): the spec's `DecodeError`, recoverable (60_exceptions.md
  R110). -/
  | decodeError (word : Word)
  /-- Fewer than two bytes: no instruction word (R53). The engine never meets it, since a fetch that would be short
  fails its bound check (20_memory.md R32). -/
  | truncated
  deriving DecidableEq, Repr

/-! ### The word and its fields -/

/-- The instruction word of two fetched bytes: big-endian, first byte high (20_memory.md R32, decision D1). -/
def bigEndian (b0 b1 : Byte) : Word := b0 ++ b1

/-- The two bytes of a word as they lie in memory, the high byte at the lower address (R32). -/
def wordBytes (w : Word) : List Byte := [w.extractLsb' 8 8, w.extractLsb' 0 8]

/-- `N3 = word[15:12]`, the primary opcode (R53). -/
def opNibble (w : Word) : Nibble := w.extractLsb' 12 4

/-- `x = word[11:8]` (R54). -/
def fieldX (w : Word) : RegIdx := w.extractLsb' 8 4

/-- `y = word[7:4]` (R54). -/
def fieldY (w : Word) : RegIdx := w.extractLsb' 4 4

/-- `n = word[3:0]` (R54). -/
def fieldN (w : Word) : Nibble := w.extractLsb' 0 4

/-- `kk = word[7:0]` (R54). -/
def fieldKk (w : Word) : Byte := w.extractLsb' 0 8

/-- `nnn = word[11:0]` (R54). -/
def fieldNnn (w : Word) : Addr12 := w.extractLsb' 0 12

/-! ### The decoder -/

/-- Family 0x0 (R58). -/
def decode0 (w : Word) : Except DecodeFailure Instr :=
  if w = 0x00E0#16 then .ok .cls
  else if w = 0x00EE#16 then .ok .ret
  else if w = 0x00FB#16 then .ok .unsupScrollRight
  else if w = 0x00FC#16 then .ok .unsupScrollLeft
  else if w = 0x00FD#16 then .ok .unsupExit
  else if w = 0x00FE#16 then .ok .unsupLow
  else if w = 0x00FF#16 then .ok .unsupHigh
  else if fieldX w = 0x0#4 ∧ fieldY w = 0xC#4 then .ok (.unsupScrollDown (fieldN w))
  else .error (.decodeError w)

/-- Family 0x8, dispatched on the low nibble (R59). -/
def decode8 (w : Word) : Except DecodeFailure Instr :=
  match (fieldN w).toNat with
  | 0x0 => .ok (.loadReg (fieldX w) (fieldY w))
  | 0x1 => .ok (.or (fieldX w) (fieldY w))
  | 0x2 => .ok (.and (fieldX w) (fieldY w))
  | 0x3 => .ok (.xor (fieldX w) (fieldY w))
  | 0x4 => .ok (.addReg (fieldX w) (fieldY w))
  | 0x5 => .ok (.sub (fieldX w) (fieldY w))
  | 0x6 => .ok (.shiftRight (fieldX w) (fieldY w))
  | 0x7 => .ok (.subN (fieldX w) (fieldY w))
  | 0xE => .ok (.shiftLeft (fieldX w) (fieldY w))
  | _ => .error (.decodeError w)

/-- Family 0xD: Dxy0 is unsupported, every other word is DRW (R63). -/
def decodeD (w : Word) : Except DecodeFailure Instr :=
  if fieldN w = 0x0#4 then .ok (.unsupDrawLarge (fieldX w) (fieldY w))
  else .ok (.draw (fieldX w) (fieldY w) (fieldN w))

/-- Family 0xE, dispatched on the low byte (R60). -/
def decodeE (w : Word) : Except DecodeFailure Instr :=
  if fieldKk w = 0x9E#8 then .ok (.skipKey (fieldX w))
  else if fieldKk w = 0xA1#8 then .ok (.skipNotKey (fieldX w))
  else .error (.decodeError w)

/-- Family 0xF, dispatched on the low byte (R61). -/
def decodeF (w : Word) : Except DecodeFailure Instr :=
  if fieldKk w = 0x07#8 then .ok (.getDelay (fieldX w))
  else if fieldKk w = 0x0A#8 then .ok (.waitKey (fieldX w))
  else if fieldKk w = 0x15#8 then .ok (.setDelay (fieldX w))
  else if fieldKk w = 0x18#8 then .ok (.setSound (fieldX w))
  else if fieldKk w = 0x1E#8 then .ok (.addIndex (fieldX w))
  else if fieldKk w = 0x33#8 then .ok (.storeBcd (fieldX w))
  else if fieldKk w = 0x55#8 then .ok (.storeRegs (fieldX w))
  else if fieldKk w = 0x65#8 then .ok (.loadRegs (fieldX w))
  else if fieldKk w = 0x30#8 then .ok (.unsupLargeDigit (fieldX w))
  else if fieldKk w = 0x75#8 then .ok (.unsupSaveFlags (fieldX w))
  else if fieldKk w = 0x85#8 then .ok (.unsupLoadFlags (fieldX w))
  else .error (.decodeError w)

/-- `decode(word)` (R56, R57): dispatch on the high nibble. The spec's answer `Unsupported` is an instruction `i` with
`i.unsupported` here. -/
def decode (w : Word) : Except DecodeFailure Instr :=
  match (opNibble w).toNat with
  | 0x0 => decode0 w
  | 0x1 => .ok (.jump (fieldNnn w))
  | 0x2 => .ok (.call (fieldNnn w))
  | 0x3 => .ok (.skipEqImm (fieldX w) (fieldKk w))
  | 0x4 => .ok (.skipNeImm (fieldX w) (fieldKk w))
  | 0x5 => .ok (.skipEqReg (fieldX w) (fieldY w))
  | 0x6 => .ok (.loadImm (fieldX w) (fieldKk w))
  | 0x7 => .ok (.addImm (fieldX w) (fieldKk w))
  | 0x8 => decode8 w
  | 0x9 => .ok (.skipNeReg (fieldX w) (fieldY w))
  | 0xA => .ok (.loadIndex (fieldNnn w))
  | 0xB => .ok (.jumpOffset (fieldNnn w))
  | 0xC => .ok (.random (fieldX w) (fieldKk w))
  | 0xD => decodeD w
  | 0xE => decodeE w
  | _ => decodeF w -- the one nibble left, 0xF

/-- The decoder on bytes: the instruction of the first two and the bytes after it. -/
def decodeBytes : List Byte → Except DecodeFailure (Instr × List Byte)
  | b0 :: b1 :: rest => (decode (bigEndian b0 b1)).map (·, rest)
  | [_] | [] => .error .truncated

/-- The instruction the decoder reads from a table word of `nbits` bits: the word's bytes are laid out as the hardware
stores them (big-endian) and given to `decodeBytes`. Every row has 16 bits (R53). -/
def decodeTableWord (nbits w : Nat) : Option Instr :=
  match decodeBytes (wordBytes (BitVec.ofNat 16 (w % 2 ^ nbits))) with
  | .ok (i, _) => some i
  | .error _ => none

/-! ### The encoder -/

/-- Format A (R55): `oooo nnnn nnnn nnnn`. -/
def formatA (op : Nibble) (nnn : Addr12) : Word := op ++ nnn

/-- Formats XK and, with a fixed low byte, X (R55): `oooo xxxx kkkk kkkk`. -/
def formatXK (op : Nibble) (x : RegIdx) (kk : Byte) : Word := op ++ x ++ kk

/-- Formats XYN and, with a fixed low nibble, XY (R55): `oooo xxxx yyyy nnnn`. -/
def formatXYN (op : Nibble) (x y : RegIdx) (n : Nibble) : Word := op ++ x ++ y ++ n

/-- The word of an instruction (R57, R64). For SE Vx, Vy and SNE Vx, Vy, whose low nibble is ignored, it is the word an
assembler writes, with n = 0 (R67). -/
def encode : Instr → Word
  | .cls => 0x00E0#16
  | .ret => 0x00EE#16
  | .jump nnn => formatA 0x1#4 nnn
  | .call nnn => formatA 0x2#4 nnn
  | .skipEqImm x kk => formatXK 0x3#4 x kk
  | .skipNeImm x kk => formatXK 0x4#4 x kk
  | .skipEqReg x y => formatXYN 0x5#4 x y 0x0#4
  | .loadImm x kk => formatXK 0x6#4 x kk
  | .addImm x kk => formatXK 0x7#4 x kk
  | .loadReg x y => formatXYN 0x8#4 x y 0x0#4
  | .or x y => formatXYN 0x8#4 x y 0x1#4
  | .and x y => formatXYN 0x8#4 x y 0x2#4
  | .xor x y => formatXYN 0x8#4 x y 0x3#4
  | .addReg x y => formatXYN 0x8#4 x y 0x4#4
  | .sub x y => formatXYN 0x8#4 x y 0x5#4
  | .shiftRight x y => formatXYN 0x8#4 x y 0x6#4
  | .subN x y => formatXYN 0x8#4 x y 0x7#4
  | .shiftLeft x y => formatXYN 0x8#4 x y 0xE#4
  | .skipNeReg x y => formatXYN 0x9#4 x y 0x0#4
  | .loadIndex nnn => formatA 0xA#4 nnn
  | .jumpOffset nnn => formatA 0xB#4 nnn
  | .random x kk => formatXK 0xC#4 x kk
  | .draw x y n => formatXYN 0xD#4 x y n
  | .skipKey x => formatXK 0xE#4 x 0x9E#8
  | .skipNotKey x => formatXK 0xE#4 x 0xA1#8
  | .getDelay x => formatXK 0xF#4 x 0x07#8
  | .waitKey x => formatXK 0xF#4 x 0x0A#8
  | .setDelay x => formatXK 0xF#4 x 0x15#8
  | .setSound x => formatXK 0xF#4 x 0x18#8
  | .addIndex x => formatXK 0xF#4 x 0x1E#8
  | .storeBcd x => formatXK 0xF#4 x 0x33#8
  | .storeRegs x => formatXK 0xF#4 x 0x55#8
  | .loadRegs x => formatXK 0xF#4 x 0x65#8
  | .unsupScrollDown n => formatXYN 0x0#4 0x0#4 0xC#4 n
  | .unsupScrollRight => 0x00FB#16
  | .unsupScrollLeft => 0x00FC#16
  | .unsupExit => 0x00FD#16
  | .unsupLow => 0x00FE#16
  | .unsupHigh => 0x00FF#16
  | .unsupDrawLarge x y => formatXYN 0xD#4 x y 0x0#4
  | .unsupLargeDigit x => formatXK 0xF#4 x 0x30#8
  | .unsupSaveFlags x => formatXK 0xF#4 x 0x75#8
  | .unsupLoadFlags x => formatXK 0xF#4 x 0x85#8

/-! ### The opcode table -/

/-- One row of spec/opcode_table.json (30_encoding.md R66): a word selects the row when `word & mask = match`, and in the
row of DRW only when the length field is not 0. -/
structure OpcodeRow where
  mask          : Word
  pattern       : Word
  lengthNonzero : Bool
  deriving DecidableEq, Repr

/-- `w` selects the row `r` (R66). -/
def rowMatches (r : OpcodeRow) (w : Word) : Bool :=
  decide (w &&& r.mask = r.pattern) && (!r.lengthNonzero || decide (fieldN w ≠ 0x0#4))

/-- The row of an instruction. -/
def rowOf : Instr → OpcodeRow
  | .cls => ⟨0xFFFF#16, 0x00E0#16, false⟩
  | .ret => ⟨0xFFFF#16, 0x00EE#16, false⟩
  | .jump _ => ⟨0xF000#16, 0x1000#16, false⟩
  | .call _ => ⟨0xF000#16, 0x2000#16, false⟩
  | .skipEqImm _ _ => ⟨0xF000#16, 0x3000#16, false⟩
  | .skipNeImm _ _ => ⟨0xF000#16, 0x4000#16, false⟩
  | .skipEqReg _ _ => ⟨0xF000#16, 0x5000#16, false⟩
  | .loadImm _ _ => ⟨0xF000#16, 0x6000#16, false⟩
  | .addImm _ _ => ⟨0xF000#16, 0x7000#16, false⟩
  | .loadReg _ _ => ⟨0xF00F#16, 0x8000#16, false⟩
  | .or _ _ => ⟨0xF00F#16, 0x8001#16, false⟩
  | .and _ _ => ⟨0xF00F#16, 0x8002#16, false⟩
  | .xor _ _ => ⟨0xF00F#16, 0x8003#16, false⟩
  | .addReg _ _ => ⟨0xF00F#16, 0x8004#16, false⟩
  | .sub _ _ => ⟨0xF00F#16, 0x8005#16, false⟩
  | .shiftRight _ _ => ⟨0xF00F#16, 0x8006#16, false⟩
  | .subN _ _ => ⟨0xF00F#16, 0x8007#16, false⟩
  | .shiftLeft _ _ => ⟨0xF00F#16, 0x800E#16, false⟩
  | .skipNeReg _ _ => ⟨0xF000#16, 0x9000#16, false⟩
  | .loadIndex _ => ⟨0xF000#16, 0xA000#16, false⟩
  | .jumpOffset _ => ⟨0xF000#16, 0xB000#16, false⟩
  | .random _ _ => ⟨0xF000#16, 0xC000#16, false⟩
  | .draw _ _ _ => ⟨0xF000#16, 0xD000#16, true⟩
  | .skipKey _ => ⟨0xF0FF#16, 0xE09E#16, false⟩
  | .skipNotKey _ => ⟨0xF0FF#16, 0xE0A1#16, false⟩
  | .getDelay _ => ⟨0xF0FF#16, 0xF007#16, false⟩
  | .waitKey _ => ⟨0xF0FF#16, 0xF00A#16, false⟩
  | .setDelay _ => ⟨0xF0FF#16, 0xF015#16, false⟩
  | .setSound _ => ⟨0xF0FF#16, 0xF018#16, false⟩
  | .addIndex _ => ⟨0xF0FF#16, 0xF01E#16, false⟩
  | .storeBcd _ => ⟨0xF0FF#16, 0xF033#16, false⟩
  | .storeRegs _ => ⟨0xF0FF#16, 0xF055#16, false⟩
  | .loadRegs _ => ⟨0xF0FF#16, 0xF065#16, false⟩
  | .unsupScrollDown _ => ⟨0xFFF0#16, 0x00C0#16, false⟩
  | .unsupScrollRight => ⟨0xFFFF#16, 0x00FB#16, false⟩
  | .unsupScrollLeft => ⟨0xFFFF#16, 0x00FC#16, false⟩
  | .unsupExit => ⟨0xFFFF#16, 0x00FD#16, false⟩
  | .unsupLow => ⟨0xFFFF#16, 0x00FE#16, false⟩
  | .unsupHigh => ⟨0xFFFF#16, 0x00FF#16, false⟩
  | .unsupDrawLarge _ _ => ⟨0xF00F#16, 0xD000#16, false⟩
  | .unsupLargeDigit _ => ⟨0xF0FF#16, 0xF030#16, false⟩
  | .unsupSaveFlags _ => ⟨0xF0FF#16, 0xF075#16, false⟩
  | .unsupLoadFlags _ => ⟨0xF0FF#16, 0xF085#16, false⟩

/-- The 43 rows of the table, in its order. -/
def opcodeTable : List OpcodeRow :=
  [rowOf .cls, rowOf .ret, rowOf (.jump 0), rowOf (.call 0), rowOf (.skipEqImm 0 0), rowOf (.skipNeImm 0 0), rowOf (.skipEqReg 0 0)] ++
  [rowOf (.loadImm 0 0), rowOf (.addImm 0 0), rowOf (.loadReg 0 0), rowOf (.or 0 0), rowOf (.and 0 0), rowOf (.xor 0 0), rowOf (.addReg 0 0)] ++
  [rowOf (.sub 0 0), rowOf (.shiftRight 0 0), rowOf (.subN 0 0), rowOf (.shiftLeft 0 0), rowOf (.skipNeReg 0 0), rowOf (.loadIndex 0), rowOf (.jumpOffset 0)] ++
  [rowOf (.random 0 0), rowOf (.draw 0 0 0), rowOf (.skipKey 0), rowOf (.skipNotKey 0), rowOf (.getDelay 0), rowOf (.waitKey 0), rowOf (.setDelay 0)] ++
  [rowOf (.setSound 0), rowOf (.addIndex 0), rowOf (.storeBcd 0), rowOf (.storeRegs 0), rowOf (.loadRegs 0), rowOf (.unsupScrollDown 0), rowOf .unsupScrollRight] ++
  [rowOf .unsupScrollLeft, rowOf .unsupExit, rowOf .unsupLow, rowOf .unsupHigh, rowOf (.unsupDrawLarge 0 0), rowOf (.unsupLargeDigit 0), rowOf (.unsupSaveFlags 0)] ++
  [rowOf (.unsupLoadFlags 0)]

end Sys2Proof
end

