-- ==== Sys2Proof/Config.lean ====
section
/-! DEFINITION. The implementation parameters of 00_scope.md R6 and the one free value of the spec, the random byte
(20_memory.md R48). The fixed sizes of R6 stand here too. -/

namespace Sys2Proof

/-- `SHIFT_SOURCE` (R6, decision D9): the register SHR and SHL shift. -/
inductive ShiftSource where
  | vx
  | vy
  deriving DecidableEq, Repr

/-- `DRAW_EDGE` (R6, decision D11): what happens to a sprite pixel past the edge (20_memory.md R41, R42). -/
inductive DrawEdge where
  | wrap
  | clip
  deriving DecidableEq, Repr

/-- `DRAW_AXES` (R6, decision D12): which register of DRW gives the row. -/
inductive DrawAxes where
  | vxRow
  | vxCol
  deriving DecidableEq, Repr

/-- The named parameters of R6 other than `RAND` and `SEED`. They are fixed for a run (10_state.md R27). -/
structure Config where
  stackDepth     : Nat
  shiftSource    : ShiftSource
  indexIncrement : Bool
  drawEdge       : DrawEdge
  drawAxes       : DrawAxes
  deriving DecidableEq, Repr

namespace Config

/-- The defaults of R6's table. -/
def default : Config where
  stackDepth := 16
  shiftSource := .vx
  indexIncrement := false
  drawEdge := .wrap
  drawAxes := .vxRow

/-- `RAND` (R6, 20_memory.md R48): the byte of the draw number `draws` of an engine seeded with `seed`. It has no body:
nothing can be proved of its values, so a claim about a draw holds for every byte and no law relates two draws
(notes/assumptions/3.md). -/
opaque randByte (seed draws : Nat) : Byte

/-- `MEM_SIZE` (R6): addresses 0x000..0xFFF. -/
def memSize : Nat := 4096

/-- `ROM_BASE` (R6). -/
def romBase : Nat := 0x200

end Config

end Sys2Proof
end

