-- ==== Sys2Proof/Machine/State.lean ====
section
/-! DEFINITION. The state of the engine as plain data (10_state.md R13), its fault record and step outcomes
(60_exceptions.md R109, R112, R113), and the state after reset (70_reset_and_hazards.md R125). -/

namespace Sys2Proof.Machine

/-- Memory as a list of (address, byte) pairs in canonical form (`Memory.wf` in Machine/Ops.lean): addresses strictly
rising, no entry equal to what an unlisted address reads as. -/
abbrev Memory := List Host.Cell

/-- The register file V0..VF (10_state.md R14). -/
abbrev Regs := Vector Byte 16

/-- The display buffer, 256 bytes (10_state.md R22); `pix` in Machine/Display.lean reads one pixel. -/
abbrev Display := Vector Byte 256

/-- The fatal faults (60_exceptions.md R112): the codes that can stand in `status`. -/
inductive FaultCode where
  /-- Code 3: an access with addr + n > 4096 (20_memory.md R30). -/
  | outOfBoundsAccess
  /-- Code 4: RET with an empty call stack (20_memory.md R37). -/
  | callStackUnderflow
  /-- Code 5: CALL with STACK_DEPTH entries on the stack (20_memory.md R36). -/
  | callStackOverflow
  deriving DecidableEq, Repr

/-- The engine status (10_state.md R25). -/
inductive Status where
  | running
  /-- A fatal fault was entered (60_exceptions.md R113): its code, the `pc` of the faulting instruction, and its word,
  none when the fault was the fetch itself. -/
  | faulted (code : FaultCode) (fpc : Word) (word : Option Word)
  deriving DecidableEq, Repr

/-- What a taken step returns to the host (60_exceptions.md R109). -/
inductive StepOutcome where
  /-- An instruction ran with effect Advance, AdvanceSkip or Jump. -/
  | executed
  /-- LD Vx, K ran with no key asserted. -/
  | suspended
  /-- Code 1 (R110): the word was skipped. -/
  | skippedDecodeError (word : Word)
  /-- Code 2 (R111): the word was skipped. -/
  | skippedUnsupported (word : Word)
  /-- A fatal fault; its record is in `status`. -/
  | faulted
  deriving DecidableEq, Repr

/-- The PRNG state (10_state.md R24): the seed and how many bytes have been drawn. The next byte is the free value
`Config.randByte seed draws`. The two components are the model's own (notes/assumptions/3.md). -/
structure Rng where
  seed  : Nat
  draws : Nat
  deriving DecidableEq, Repr

/-- The state record of 10_state.md R13. The last two fields are the model's own. -/
structure State where
  /-- V0..VF; `V[15]` is the flag register (R14, R15). -/
  V       : Regs
  /-- The index register (R18). -/
  I       : Word
  /-- The program counter (R17). -/
  pc      : Word
  /-- The delay timer (R19). -/
  DT      : Byte
  /-- The sound timer (R19). -/
  ST      : Byte
  /-- The call stack, top last (R20). -/
  stack   : List Word
  /-- The 4096-byte memory (R21). -/
  mem     : Memory
  /-- The display buffer (R22). -/
  disp    : Display
  /-- The input latch: none or the asserted key (R23). -/
  key     : Option Key
  /-- The PRNG state (R24). -/
  rng     : Rng
  /-- The engine status (R25). -/
  status  : Status
  /-- The parameters of 00_scope.md R6, fixed for a run; no step writes them. DESIGN CHOICE, safe
  (notes/assumptions/1.md). -/
  cfg     : Config
  /-- What the last taken step returned to the host (60_exceptions.md R109); no step reads it. DESIGN CHOICE, safe
  (notes/assumptions/2.md). -/
  outcome : Option StepOutcome
  deriving DecidableEq, Repr

/-- Why the machine stops with a fault. There is no such reason: a fatal fault of the spec is an entry that leaves a
next state with `status` faulted (60_exceptions.md R113), and a call of the step after it changes nothing (40_control.md
R68); notes/assumptions/5.md. Nobody raises it, which is safe: nothing is claimed of a run that stops. -/
inductive Fault where
  deriving DecidableEq, Repr

/-- Why an instruction has no meaning. -/
inductive Refusal where
  /-- Raised by an arm of `exec` for an instruction that is not modelled yet; safe. No arm raises it now. -/
  | notModelled (mnemonic : String)
  deriving DecidableEq, Repr

/-- The state after `reset(seed)`, before a ROM is copied (70_reset_and_hazards.md R125, 10_state.md R13), under the
parameters `cfg`. Every value but that of `pc` is the spec's own decision (notes/assumptions/4.md). -/
def State.resetWith (cfg : Config) (seed : Nat) : State where
  V := Vector.replicate 16 0#8
  I := 0#16
  pc := 0x200#16
  DT := 0#8
  ST := 0#8
  stack := []
  mem := []
  disp := Vector.replicate 256 0#8
  key := none
  rng := { seed := seed, draws := 0 }
  status := .running
  cfg := cfg
  outcome := none

/-- The machine right after reset, with the default parameters (00_scope.md R6) and the seed 0, a DESIGN CHOICE, unsafe
for a claim that names the seed and for no other (notes/assumptions/3.md). -/
def State.reset : State := State.resetWith Config.default 0

end Sys2Proof.Machine
end

