-- ==== Sys2Proof/Machine/Ops.lean ====
section
/-! DEFINITION. The named operations every meaning uses: the memory primitives (20_memory.md R30, R31), the fetch
(R32), the call stack (R36, R37), the key queries (R45, R46), the random byte (R48), the control-flow effects
(40_control.md R70), the two recoverable skips (60_exceptions.md R110, R111) and the entry of a fatal fault (R113). -/

namespace Sys2Proof.Machine

/-- What one call of a meaning or of the step answers. -/
abbrev Answer := Host.Outcome State Fault Refusal

/-! ### Memory -/

/-- What an address that the list does not name reads as: memory is 0 at reset outside the ROM (10_state.md R21). -/
def Memory.unlisted : Byte := 0#8

/-- `Mem[a]`: one byte of memory (00_scope.md R8). -/
def Memory.readByte : Memory → Nat → Byte
  | [], _ => Memory.unlisted
  | (k, b) :: rest, a => if k = a then b else Memory.readByte rest a

/-- The memory without an entry for `a`. -/
def Memory.erase : Memory → Nat → Memory
  | [], _ => []
  | (k, c) :: rest, a => if k = a then Memory.erase rest a else (k, c) :: Memory.erase rest a

/-- The entry (a, b) put at its place in the order of addresses. -/
def Memory.insert : Memory → Nat → Byte → Memory
  | [], a, b => [(a, b)]
  | (k, c) :: rest, a, b => if a < k then (a, b) :: (k, c) :: rest else (k, c) :: Memory.insert rest a b

/-- `Mem[a] <- b`, keeping the canonical form: a byte that an unlisted address reads as is not listed. -/
def Memory.writeByte (m : Memory) (a : Nat) (b : Byte) : Memory :=
  if b = Memory.unlisted then Memory.erase m a else Memory.insert (Memory.erase m a) a b

/-- The bytes `bs` written at `a`, `a + 1`, ... in this order. -/
def Memory.writeBytes : Memory → Nat → List Byte → Memory
  | m, _, [] => m
  | m, a, b :: bs => Memory.writeBytes (m.writeByte a b) (a + 1) bs

/-- The canonical form from the address `lo` on: addresses rise strictly, lie below MEM_SIZE, and no listed byte is
what an unlisted address reads as. -/
def Memory.wfFrom : Nat → Memory → Bool
  | _, [] => true
  | lo, (k, b) :: rest =>
    decide (lo ≤ k) && decide (k < Config.memSize) && decide (b ≠ Memory.unlisted) && Memory.wfFrom (k + 1) rest

/-- The canonical form of memory. -/
def Memory.wf (m : Memory) : Bool := Memory.wfFrom 0 m

/-- The bound check of 20_memory.md R30, on unbounded integers. -/
abbrev inBounds (addr n : Nat) : Prop := addr + n ≤ Config.memSize

/-- `MemRead(addr, n)` (R30): none is its `raise Fault(OutOfBoundsAccess)`. -/
def memRead (m : Memory) (addr n : Nat) : Option (List Byte) :=
  if inBounds addr n then some ((List.range n).map fun j => m.readByte (addr + j)) else none

/-- `MemWrite(addr, n, bytes)` (R30, R31) with n the length of `bytes`: none is its `raise Fault(OutOfBoundsAccess)`,
and then nothing is written. -/
def memWrite (m : Memory) (addr : Nat) (bytes : List Byte) : Option Memory :=
  if inBounds addr bytes.length then some (m.writeBytes addr bytes) else none

/-- The instruction fetch `MemRead(pc, 2)`, assembled big-endian (20_memory.md R32); none when its bound check fails. -/
def fetch (m : Memory) (pc : Word) : Option Word :=
  match memRead m pc.toNat 2 with
  | some [b0, b1] => some (bigEndian b0 b1)
  | _ => none

/-! ### The call stack -/

/-- `Push(a)` (20_memory.md R36): none is its `raise Fault(CallStackOverflow)`. -/
def push (depth : Nat) (stack : List Word) (a : Word) : Option (List Word) :=
  if stack.length = depth then none else some (stack ++ [a])

/-- `Pop()` (R37): the top and the stack without it; none is its `raise Fault(CallStackUnderflow)`. -/
def pop (stack : List Word) : Option (Word × List Word) :=
  match stack.getLast? with
  | none => none
  | some a => some (a, stack.dropLast)

/-! ### The input latch and the random byte -/

/-- `KeyIsPressed(v)` (20_memory.md R45): false whenever v > 15, since the latch holds 0..15. -/
def keyIsPressed (key : Option Key) (v : Byte) : Bool :=
  match key with
  | none => false
  | some k => decide (k.toNat = v.toNat)

/-- `KeyGetPressed()` (R46): a snapshot of the latch, which stays as it is. -/
def keyGetPressed (key : Option Key) : Option Key := key

/-- `RandByte()` (R48): the drawn byte, a free value, and the PRNG state after the draw. -/
def randByte (g : Rng) : Byte × Rng := (Config.randByte g.seed g.draws, { g with draws := g.draws + 1 })

/-! ### How a step ends -/

/-- The control-flow effects (40_control.md R70). -/
inductive Effect where
  | advance
  | advanceSkip
  | jump (target : Word)
  | suspend
  deriving DecidableEq, Repr

/-- The next pc from the pc `p` of the instruction (R70). After a successful fetch no sum wraps (R71); a caller that
hands `exec` a pc above 0xFFE, which no fetch allows, gets sums modulo 2^16 (notes/assumptions/7.md). -/
def nextPc (p : Word) : Effect → Word
  | .advance => p + 2#16
  | .advanceSkip => p + 4#16
  | .jump a => a
  | .suspend => p

/-- The skip instructions' effect: AdvanceSkip if the condition holds, else Advance (40_control.md R75 to R78). -/
def skipIf (c : Bool) : Effect := if c then .advanceSkip else .advance

/-- The step outcome of an instruction that ran with the effect `e` (60_exceptions.md R109). -/
def Effect.outcome : Effect → StepOutcome
  | .advance | .advanceSkip | .jump _ => .executed
  | .suspend => .suspended

/-- The end of an instruction that raised nothing: `s` holds its writes, `pc` is set from its effect, and the outcome is
returned (40_control.md R69, R70). -/
def retire (s : State) (e : Effect) : Answer :=
  .next { s with pc := nextPc s.pc e, outcome := some e.outcome }

/-- Entry of a fatal fault (60_exceptions.md R113): `status` records the code, the pc of the faulting instruction and
its word; nothing else of the engine changes, pc included. -/
def enterFault (code : FaultCode) (word : Option Word) (s : State) : Answer :=
  .next { s with status := .faulted code s.pc word, outcome := some .faulted }

/-- `raise Fault(code)` reached by the instruction `i` (00_scope.md R9, R10): `s` is the state at the start of the step.
The recorded word is `encode i`: each instruction that can raise a fault has exactly one word
(notes/assumptions/6.md). -/
def raiseFault (code : FaultCode) (i : Instr) (s : State) : Answer :=
  enterFault code (some (encode i)) s

/-- A fetch that fails its bound check (40_control.md R69): the record has no word. -/
def fetchFault (s : State) : Answer := enterFault .outOfBoundsAccess none s

/-- DecodeError (60_exceptions.md R110): pc + 2 and nothing else. -/
def skipDecodeError (word : Word) (s : State) : Answer :=
  .next { s with pc := nextPc s.pc .advance, outcome := some (.skippedDecodeError word) }

/-- UnsupportedInstruction (60_exceptions.md R111): pc + 2 and nothing else; the outcome tells it from a DecodeError. -/
def skipUnsupported (i : Instr) (s : State) : Answer :=
  .next { s with pc := nextPc s.pc .advance, outcome := some (.skippedUnsupported (encode i)) }

end Sys2Proof.Machine
end

