-- ==== Sys2Proof/Machine/Operands.lean ====
section
/-! DEFINITION. Operand forms: the general registers (10_state.md R14), the register block of Fx55 and Fx65
(42_index_memory.md R98, R99), the shift source (41_alu.md R90, R92), the decimal digits (R97), the draw coordinates
(43_display_input_timers.md R102) and zero extension (00_scope.md R9). -/

namespace Sys2Proof.Machine

/-- `V[x]` (00_scope.md R8). -/
def readReg (s : State) (x : RegIdx) : Byte := s.V[x.toNat]'x.isLt

/-- `V[x] <- b` (R8). -/
def writeReg (s : State) (x : RegIdx) (b : Byte) : State := { s with V := s.V.set x.toNat b x.isLt }

/-- VF, the flag register: index 15 (10_state.md R15). -/
def VF : RegIdx := 0xF#4

/-- The 12-bit address as a 16-bit value: `zext_16(nnn)` (30_encoding.md R54). -/
def zextAddr (nnn : Addr12) : Word := nnn.setWidth 16

/-- `zext_16` of a byte. -/
def zextByte (b : Byte) : Word := b.setWidth 16

/-- The number of registers of the block V0..=Vx: `m = x + 1` (R98, R99). -/
def blockLength (x : RegIdx) : Nat := x.toNat + 1

/-- `[V[0], V[1], ..., V[x]]` (R98). -/
def regBlock (s : State) (x : RegIdx) : List Byte := s.V.toList.take (blockLength x)

/-- `for j in 0 .. len-1: V[start + j] <- bytes[j]` (R99). -/
def loadBlock (V : Regs) : Nat → List Byte → Regs
  | _, [] => V
  | j, b :: bs => loadBlock (V.setIfInBounds j b) (j + 1) bs

/-- The optional post-increment of Fx55 and Fx65 (R98, R99, R100): `I <- (I + x + 1) mod 2^16` iff INDEX_INCREMENT. -/
def bumpIndex (x : RegIdx) (s : State) : State :=
  if s.cfg.indexIncrement then { s with I := s.I + BitVec.ofNat 16 (blockLength x) } else s

/-- The byte SHR and SHL shift: V[x] or V[y] by SHIFT_SOURCE (R90, R92). -/
def shiftOperand (s : State) (x y : RegIdx) : Byte :=
  match s.cfg.shiftSource with
  | .vx => readReg s x
  | .vy => readReg s y

/-- `[v div 100, (v div 10) mod 10, v mod 10]` (R97). -/
def bcdDigits (v : Byte) : List Byte :=
  [BitVec.ofNat 8 (v.toNat / 100), BitVec.ofNat 8 (v.toNat / 10 % 10), BitVec.ofNat 8 (v.toNat % 10)]

/-- The (row, column) of DRW by DRAW_AXES (R102): full 8-bit register values. -/
def drawOrigin (s : State) (x y : RegIdx) : Nat × Nat :=
  match s.cfg.drawAxes with
  | .vxRow => ((readReg s x).toNat, (readReg s y).toNat)
  | .vxCol => ((readReg s y).toNat, (readReg s x).toNat)

end Sys2Proof.Machine
end

