-- ==== Sys2Proof/Machine/Flags.lean ====
section
/-! DEFINITION. The flag computations (41_alu.md R81, R94) and the one order in which a result and a flag are written:
the flag last, so that it wins when the destination is VF (00_scope.md R10, 10_state.md R15). -/

namespace Sys2Proof.Machine

/-- A flag value is 1 or 0 (R81). -/
def flagByte (f : Bool) : Byte := if f then 1#8 else 0#8

/-- Carry of an addition: the integer sum exceeds 255 (R83, R88). -/
def carryOut (a b : Byte) : Bool := decide (a.toNat + b.toNat > 255)

/-- No borrow of `a - b`: a >= b (R89, R91). -/
def noBorrow (a b : Byte) : Bool := decide (a.toNat ≥ b.toNat)

/-- The bit a right shift by one drops: `src & 1` (R90). -/
def lowBit (src : Byte) : Bool := decide (src.toNat % 2 = 1)

/-- The bit a left shift by one drops: `src >> 7` (R92). -/
def highBit (src : Byte) : Bool := decide (src.toNat / 128 = 1)

/-- `V[15] <- f ? 1 : 0`. -/
def writeFlag (s : State) (f : Bool) : State := writeReg s VF (flagByte f)

/-- `V[x] <- r`, then `V[15] <- f ? 1 : 0`. -/
def writeResult (s : State) (x : RegIdx) (r : Byte) (f : Bool) : State := writeFlag (writeReg s x r) f

end Sys2Proof.Machine
end

