-- ==== Sys2Proof/Machine/Alu.lean ====
section
/-! DEFINITION. Register loads, ALU and random (41_alu.md R82 to R93). -/

namespace Sys2Proof.Machine

/-- LD Vx, kk (R82). -/
def execLoadImm (x : RegIdx) (kk : Byte) (s : State) : Answer := retire (writeReg s x kk) .advance

/-- ADD Vx, kk (R83): VF is the carry. -/
def execAddImm (x : RegIdx) (kk : Byte) (s : State) : Answer :=
  let a := readReg s x
  retire (writeResult s x (a + kk) (carryOut a kk)) .advance

/-- LD Vx, Vy (R84). -/
def execLoadReg (x y : RegIdx) (s : State) : Answer := retire (writeReg s x (readReg s y)) .advance

/-- OR Vx, Vy (R85). -/
def execOr (x y : RegIdx) (s : State) : Answer := retire (writeReg s x (readReg s x ||| readReg s y)) .advance

/-- AND Vx, Vy (R86). -/
def execAnd (x y : RegIdx) (s : State) : Answer := retire (writeReg s x (readReg s x &&& readReg s y)) .advance

/-- XOR Vx, Vy (R87). -/
def execXor (x y : RegIdx) (s : State) : Answer := retire (writeReg s x (readReg s x ^^^ readReg s y)) .advance

/-- ADD Vx, Vy (R88): VF is the carry. -/
def execAddReg (x y : RegIdx) (s : State) : Answer :=
  let a := readReg s x
  let b := readReg s y
  retire (writeResult s x (a + b) (carryOut a b)) .advance

/-- SUB Vx, Vy (R89): VF is 1 iff there is no borrow. -/
def execSub (x y : RegIdx) (s : State) : Answer :=
  let a := readReg s x
  let b := readReg s y
  retire (writeResult s x (a - b) (noBorrow a b)) .advance

/-- SUBN Vx, Vy (R91): VF is 1 iff there is no borrow. -/
def execSubN (x y : RegIdx) (s : State) : Answer :=
  let a := readReg s x
  let b := readReg s y
  retire (writeResult s x (b - a) (noBorrow b a)) .advance

/-- SHR Vx, Vy (R90): VF is the bit shifted out. -/
def execShiftRight (x y : RegIdx) (s : State) : Answer :=
  let src := shiftOperand s x y
  retire (writeResult s x (src >>> 1) (lowBit src)) .advance

/-- SHL Vx, Vy (R92): VF is the bit shifted out. -/
def execShiftLeft (x y : RegIdx) (s : State) : Answer :=
  let src := shiftOperand s x y
  retire (writeResult s x (src <<< 1) (highBit src)) .advance

/-- RND Vx, kk (R93): the drawn byte is a free value (notes/assumptions/3.md). -/
def execRandom (x : RegIdx) (kk : Byte) (s : State) : Answer :=
  let (r, g) := randByte s.rng
  retire (writeReg { s with rng := g } x (r &&& kk)) .advance

end Sys2Proof.Machine
end

