-- ==== Sys2Proof/Machine/Control.lean ====
section
/-! DEFINITION. Control transfer (40_control.md R72 to R79): RET, JP, CALL, the four register skips, JP V0. -/

namespace Sys2Proof.Machine

/-- RET (R72). -/
def execRet (s : State) : Answer :=
  match pop s.stack with
  | none => raiseFault .callStackUnderflow .ret s
  | some (a, rest) => retire { s with stack := rest } (.jump a)

/-- JP nnn (R73). -/
def execJump (nnn : Addr12) (s : State) : Answer := retire s (.jump (zextAddr nnn))

/-- CALL nnn (R74). -/
def execCall (nnn : Addr12) (s : State) : Answer :=
  match push s.cfg.stackDepth s.stack (s.pc + 2#16) with
  | none => raiseFault .callStackOverflow (.call nnn) s
  | some stack => retire { s with stack := stack } (.jump (zextAddr nnn))

/-- SE Vx, kk (R75). -/
def execSkipEqImm (x : RegIdx) (kk : Byte) (s : State) : Answer := retire s (skipIf (readReg s x == kk))

/-- SNE Vx, kk (R76). -/
def execSkipNeImm (x : RegIdx) (kk : Byte) (s : State) : Answer := retire s (skipIf (readReg s x != kk))

/-- SE Vx, Vy (R77). -/
def execSkipEqReg (x y : RegIdx) (s : State) : Answer := retire s (skipIf (readReg s x == readReg s y))

/-- SNE Vx, Vy (R78). -/
def execSkipNeReg (x y : RegIdx) (s : State) : Answer := retire s (skipIf (readReg s x != readReg s y))

/-- JP V0, nnn (R79): the sum is not reduced modulo 4096. -/
def execJumpOffset (nnn : Addr12) (s : State) : Answer :=
  retire s (.jump (zextAddr nnn + zextByte (readReg s 0x0#4)))

end Sys2Proof.Machine
end

