-- ==== Sys2Proof/Machine/Display.lean ====
section
/-! DEFINITION. The display buffer (20_memory.md R39 to R43): one pixel, clear, draw under both DRAW_EDGE policies, and
the host's read. A pixel's coordinates have types of 32 and 64 values, so no display index is ever out of bounds
(60_exceptions.md R115). -/

namespace Sys2Proof.Machine

/-- The buffer byte of pixel (r, c): `r * 8 + c div 8` (R39). -/
def pixByte (r : Fin 32) (c : Fin 64) : Nat := r.val * 8 + c.val / 8

theorem pixByte_lt (r : Fin 32) (c : Fin 64) : pixByte r c < 256 := by
  have := r.isLt; have := c.isLt; unfold pixByte; omega

/-- The bit of pixel (r, c) in its byte: `7 - (c mod 8)`, the most significant bit leftmost (R39, decision D13). -/
def pixBit (c : Fin 64) : Nat := 7 - c.val % 8

/-- `pix(r, c)` (R39). -/
def pix (d : Display) (r : Fin 32) (c : Fin 64) : Bool :=
  (d[pixByte r c]'(pixByte_lt r c)).getLsbD (pixBit c)

/-- `pix(r, c) <- pix(r, c) ^ 1`. -/
def flipPix (d : Display) (r : Fin 32) (c : Fin 64) : Display :=
  d.set (pixByte r c) (d[pixByte r c]'(pixByte_lt r c) ^^^ BitVec.twoPow 8 (pixBit c)) (pixByte_lt r c)

/-- `DispClear()` (R40). -/
def dispClear : Display := Vector.replicate 256 0#8

/-- The pixel a sprite bit at (r, c) falls on: reduced modulo the display size under `wrap` (R41), dropped when it is
off the screen under `clip` (R42). -/
def place (edge : DrawEdge) (r c : Nat) : Option (Fin 32 × Fin 64) :=
  match edge with
  | .wrap => some (Fin.ofNat 32 r, Fin.ofNat 64 c)
  | .clip => if h : r < 32 ∧ c < 64 then some (⟨r, h.1⟩, ⟨c, h.2⟩) else none

/-- One sprite bit drawn at (r, c) onto the display and the collision seen so far. -/
def drawBit (edge : DrawEdge) (bit : Bool) (r c : Nat) (acc : Display × Bool) : Display × Bool :=
  if bit then
    match place edge r c with
    | none => acc
    | some (pr, pc) => (flipPix acc.1 pr pc, acc.2 || pix acc.1 pr pc)
  else acc

/-- `bytes[i][7-b]` for b in 0 .. 7: a sprite byte's bit for the pixel b places right of its leftmost one (R41). -/
def spriteBit (byte : Byte) (b : Nat) : Bool := byte.getLsbD (7 - b)

/-- One sprite byte drawn in row r, its most significant bit at column `col`. -/
def drawByte (edge : DrawEdge) (byte : Byte) (r col : Nat) (acc : Display × Bool) : Display × Bool :=
  [0, 1, 2, 3, 4, 5, 6, 7].foldl (fun a b => drawBit edge (spriteBit byte b) r (col + b) a) acc

/-- The sprite bytes drawn one row each, from `row` down. -/
def drawRows (edge : DrawEdge) (row col : Nat) : List Byte → Display × Bool → Display × Bool
  | [], acc => acc
  | byte :: rest, acc => drawRows edge (row + 1) col rest (drawByte edge byte row col acc)

/-- `DispDraw(row, col, bytes)` (R41, R42): the display after it, and whether any pixel went from 1 to 0. -/
def dispDraw (edge : DrawEdge) (d : Display) (row col : Nat) (bytes : List Byte) : Display × Bool :=
  drawRows edge row col bytes (d, false)

/-- The first buffer byte of the host's `read(row, col, len)`: `row * 8 + (col div 8)` (R43). -/
def readStart (row col : Nat) : Nat := row * 8 + col / 8

/-- `read(row, col, len)` (R43): none is a refused host call, when the byte range is not within 0..255. -/
def dispRead (d : Display) (row col len : Nat) : Option (List Byte) :=
  if readStart row col + len ≤ 256 then some ((d.toList.drop (readStart row col)).take len) else none

end Sys2Proof.Machine
end

