-- ==== Sys2Proof/Machine/Devices.lean ====
section
/-! DEFINITION. Display, input and timer instructions (43_display_input_timers.md R101 to R108). -/

namespace Sys2Proof.Machine

/-- CLS (R101). -/
def execCls (s : State) : Answer := retire { s with disp := dispClear } .advance

/-- DRW Vx, Vy, n (R102). -/
def execDraw (x y : RegIdx) (n : Nibble) (s : State) : Answer :=
  match memRead s.mem s.I.toNat n.toNat with
  | none => raiseFault .outOfBoundsAccess (.draw x y n) s
  | some sprite =>
    let (row, col) := drawOrigin s x y
    let (disp, collision) := dispDraw s.cfg.drawEdge s.disp row col sprite
    retire (writeFlag { s with disp := disp } collision) .advance

/-- SKP Vx (R103). -/
def execSkipKey (x : RegIdx) (s : State) : Answer := retire s (skipIf (keyIsPressed s.key (readReg s x)))

/-- SKNP Vx (R104). -/
def execSkipNotKey (x : RegIdx) (s : State) : Answer := retire s (skipIf (!keyIsPressed s.key (readReg s x)))

/-- LD Vx, DT (R105). -/
def execGetDelay (x : RegIdx) (s : State) : Answer := retire (writeReg s x s.DT) .advance

/-- LD Vx, K (R106): with no key asserted it suspends and changes nothing. -/
def execWaitKey (x : RegIdx) (s : State) : Answer :=
  match keyGetPressed s.key with
  | none => retire s .suspend
  | some k => retire (writeReg s x (k.setWidth 8)) .advance

/-- LD DT, Vx (R107). -/
def execSetDelay (x : RegIdx) (s : State) : Answer := retire { s with DT := readReg s x } .advance

/-- LD ST, Vx (R108). -/
def execSetSound (x : RegIdx) (s : State) : Answer := retire { s with ST := readReg s x } .advance

end Sys2Proof.Machine
end

