-- ==== Sys2Proof/Machine/Index.lean ====
section
/-! DEFINITION. The index register and the memory transfers through it (42_index_memory.md R95 to R100). -/

namespace Sys2Proof.Machine

/-- LD I, nnn (R95). -/
def execLoadIndex (nnn : Addr12) (s : State) : Answer := retire { s with I := zextAddr nnn } .advance

/-- ADD I, Vx (R96): modulo 2^16, VF not written. -/
def execAddIndex (x : RegIdx) (s : State) : Answer :=
  retire { s with I := s.I + zextByte (readReg s x) } .advance

/-- LD B, Vx (R97). -/
def execStoreBcd (x : RegIdx) (s : State) : Answer :=
  match memWrite s.mem s.I.toNat (bcdDigits (readReg s x)) with
  | none => raiseFault .outOfBoundsAccess (.storeBcd x) s
  | some mem => retire { s with mem := mem } .advance

/-- LD [I], Vx (R98). -/
def execStoreRegs (x : RegIdx) (s : State) : Answer :=
  match memWrite s.mem s.I.toNat (regBlock s x) with
  | none => raiseFault .outOfBoundsAccess (.storeRegs x) s
  | some mem => retire (bumpIndex x { s with mem := mem }) .advance

/-- LD Vx, [I] (R99). -/
def execLoadRegs (x : RegIdx) (s : State) : Answer :=
  match memRead s.mem s.I.toNat (blockLength x) with
  | none => raiseFault .outOfBoundsAccess (.loadRegs x) s
  | some bytes => retire (bumpIndex x { s with V := loadBlock s.V 0 bytes }) .advance

end Sys2Proof.Machine
end

