-- ==== Sys2Proof/Machine/Unsupported.lean ====
section
/-! DEFINITION. The ten unsupported rows (30_encoding.md R64): each executes nothing beyond advancing pc by 2 and
returns SkippedUnsupported(word) (60_exceptions.md R111). -/

namespace Sys2Proof.Machine

/-- 00Cn. -/
def execUnsupScrollDown (n : Nibble) (s : State) : Answer := skipUnsupported (.unsupScrollDown n) s

/-- 00FB. -/
def execUnsupScrollRight (s : State) : Answer := skipUnsupported .unsupScrollRight s

/-- 00FC. -/
def execUnsupScrollLeft (s : State) : Answer := skipUnsupported .unsupScrollLeft s

/-- 00FD. -/
def execUnsupExit (s : State) : Answer := skipUnsupported .unsupExit s

/-- 00FE. -/
def execUnsupLow (s : State) : Answer := skipUnsupported .unsupLow s

/-- 00FF. -/
def execUnsupHigh (s : State) : Answer := skipUnsupported .unsupHigh s

/-- Dxy0. -/
def execUnsupDrawLarge (x y : RegIdx) (s : State) : Answer := skipUnsupported (.unsupDrawLarge x y) s

/-- Fx30. -/
def execUnsupLargeDigit (x : RegIdx) (s : State) : Answer := skipUnsupported (.unsupLargeDigit x) s

/-- Fx75. -/
def execUnsupSaveFlags (x : RegIdx) (s : State) : Answer := skipUnsupported (.unsupSaveFlags x) s

/-- Fx85. -/
def execUnsupLoadFlags (x : RegIdx) (s : State) : Answer := skipUnsupported (.unsupLoadFlags x) s

end Sys2Proof.Machine
end

