-- ==== Sys2Proof/Machine/Step.lean ====
section
/-! DEFINITION. One step of the engine (40_control.md R68, R69), and the placing of one instruction where the next step
fetches it. -/

namespace Sys2Proof.Machine

/-- One call of the engine's step (R69). While `status` is faulted the call does nothing (R68). The order is the fetch
bound check, then decoding, then the instruction (60_exceptions.md R116). -/
def step (s : State) : Host.Outcome State Fault Refusal :=
  match s.status with
  | .faulted _ _ _ => .next s
  | .running =>
    match fetch s.mem s.pc with
    | none => fetchFault s
    | some w =>
      match decode w with
      | .error _ => skipDecodeError w s
      | .ok i => exec i s

/-- `s` with the instruction word `w` of `nbits` bits stored big-endian at pc, where the next step fetches
(20_memory.md R32), and the engine able to step (R68). Above 0xFFE no word can be stored and none is. -/
def State.withFetchWord (s : State) (nbits w : Nat) : State :=
  match memWrite s.mem s.pc.toNat (wordBytes (BitVec.ofNat 16 (w % 2 ^ nbits))) with
  | none => s
  | some mem => { s with mem := mem, status := .running }

end Sys2Proof.Machine
end

