-- ==== Sys2Proof/Machine/Session.lean ====
section
/-! DEFINITION. The host's transactions (70_reset_and_hazards.md R125 to R131): each is atomic and is taken between
steps. A run of the block is a list of them in any order (R131). -/

namespace Sys2Proof.Machine

/-! ### The transactions on the engine state -/

/-- The PRNG seeded again: nothing drawn yet (10_state.md R24; DEDUCED, notes/assumptions/12.md). -/
def State.reseed (s : State) (seed : Nat) : State := { s with rng := { seed := seed, draws := 0 } }

/-- `load_rom(bytes)` (R126): `MemWrite(0x200, len, rom)`; none when the image is longer than 3584 bytes. -/
def State.loadRom (s : State) (rom : List Byte) : Option State :=
  match memWrite s.mem Config.romBase rom with
  | none => none
  | some mem => some { s with mem := mem }

/-- `press(k)` (20_memory.md R44): none when k > 15, which the latch cannot hold. -/
def State.press (s : State) (k : Nat) : Option State :=
  if k ≤ 15 then some { s with key := some (BitVec.ofNat 4 k) } else none

/-- `release()` (R44). -/
def State.release (s : State) : State := { s with key := none }

/-- One timer's decrement: a timer at 0 stays at 0 (R130). -/
def tickTimer (t : Byte) : Byte := BitVec.ofNat 8 (t.toNat - 1)

/-- `tick_timers()` (R130). -/
def State.tickTimers (s : State) : State := { s with DT := tickTimer s.DT, ST := tickTimer s.ST }

/-- The tone is a host output, on while the sound timer is not 0 (10_state.md R19). -/
def State.tone (s : State) : Bool := s.ST != 0#8

/-! ### A session of the host with the block -/

/-- How far the boot has come (R126). -/
inductive Phase where
  /-- Reset, no ROM copied, no step taken: the only phase in which a ROM may be loaded. -/
  | fresh
  /-- The engine runs: a ROM has been copied or a step has been called. -/
  | started
  /-- The ROM was too long: no step may be taken until the next reset. -/
  | unstartable
  deriving DecidableEq, Repr

/-- The engine and the phase of its boot. -/
structure Session where
  engine : State
  phase  : Phase
  deriving DecidableEq, Repr

/-- The transactions of R129. -/
inductive Transaction where
  | reset (seed : Nat)
  | loadRom (rom : List Byte)
  | step
  | press (k : Nat)
  | release
  | tickTimers
  | read (row col len : Nat)
  | getTimers
  | getStatus
  deriving DecidableEq, Repr

/-- What a transaction returns to the host (R129). -/
inductive Reply where
  /-- Nothing is returned. -/
  | none
  /-- The host's call is refused and changes no engine state. -/
  | refused
  /-- The outcome of a step that was taken (60_exceptions.md R109). -/
  | outcome (o : StepOutcome)
  /-- Display bytes (20_memory.md R43). -/
  | bytes (bs : List Byte)
  /-- `DT` and `ST`. -/
  | timers (dt st : Byte)
  /-- The engine status. -/
  | status (s : Status)
  deriving DecidableEq, Repr

/-- The engine after a call of its step; a call that does not answer a next state leaves it as it is. -/
def State.afterStep (s : State) : State :=
  match step s with
  | .next t => t
  | .fault _ | .refused _ => s

/-- What a call of the step returns: the outcome of the step taken, or nothing while the engine is faulted
(40_control.md R68). -/
def stepReply (s : State) : Reply :=
  match s.status, s.afterStep.outcome with
  | .running, some o => .outcome o
  | _, _ => .none

/-- One transaction (R129). A reset keeps the parameters, which are fixed for a run (10_state.md R27). -/
def transact (t : Transaction) (h : Session) : Session × Reply :=
  match t with
  | .reset seed => ({ engine := State.resetWith h.engine.cfg seed, phase := .fresh }, .none)
  | .loadRom rom =>
    match h.phase with
    | .fresh =>
      match h.engine.loadRom rom with
      | some s => ({ engine := s, phase := .started }, .none)
      | none => ({ h with phase := .unstartable }, .refused)
    | .started | .unstartable => (h, .refused)
  | .step =>
    match h.phase with
    | .fresh | .started => ({ engine := h.engine.afterStep, phase := .started }, stepReply h.engine)
    | .unstartable => (h, .refused)
  | .press k =>
    match h.engine.press k with
    | some s => ({ h with engine := s }, .none)
    | none => (h, .refused)
  | .release => ({ h with engine := h.engine.release }, .none)
  | .tickTimers => ({ h with engine := h.engine.tickTimers }, .none)
  | .read row col len =>
    match dispRead h.engine.disp row col len with
    | some bs => (h, .bytes bs)
    | none => (h, .refused)
  | .getTimers => (h, .timers h.engine.DT h.engine.ST)
  | .getStatus => (h, .status h.engine.status)

/-- The session after a list of transactions, the first of the list first. -/
def Session.run : List Transaction → Session → Session
  | [], h => h
  | t :: ts, h => Session.run ts (transact t h).1

/-- A block just constructed (R125). -/
def Session.boot (cfg : Config) (seed : Nat) : Session :=
  { engine := State.resetWith cfg seed, phase := .fresh }

/-- The conventional end of a program: pc is at a word `1nnn` with nnn = pc (R132). The host may still go on. -/
def State.atSelfJump (s : State) : Bool :=
  match fetch s.mem s.pc with
  | none => false
  | some w => decide (decode w = .ok (.jump (s.pc.setWidth 12)))

end Sys2Proof.Machine
end

