-- ==== Sys2Proof/Safety.lean ====
section
/-! DEFINITION. What a safe state is, in the terms the statements use: the invariant every step keeps, the parts of the
state an instruction may change, and the conditions of the fatal faults. -/

namespace Sys2Proof.Machine

/-! ### The invariant -/

/-- The largest value a step can give `pc` (40_control.md R71). -/
def maxPc : Nat := 0x10FE

/-- The largest return address: that of a CALL at 0xFFE (R71, R74). -/
def maxReturn : Nat := 0x1000

/-- What every reachable state meets: memory is in canonical form, the call stack holds at most STACK_DEPTH return
addresses of at most 0x1000, and pc is at most 0x10FE (10_state.md R17, R20; 40_control.md R71). -/
structure Inv (s : State) : Prop where
  memCanonical  : s.mem.wf = true
  stackBounded  : s.stack.length ≤ s.cfg.stackDepth
  returnsInside : ∀ a ∈ s.stack, a.toNat ≤ maxReturn
  pcInside      : s.pc.toNat ≤ maxPc

/-! ### Frames -/

/-- The parts of the state an instruction may write, apart from the registers and `pc`. -/
inductive Part where
  | index
  | delay
  | sound
  | stack
  | memory
  | display
  | rng
  | status
  deriving DecidableEq, Repr

/-- No part of the state but `pc`, the registers and the parts in `ws` differs between `s` and `t`. The step's outcome
is no state of the block (10_state.md R13) and is not compared. -/
structure Unchanged (ws : List Part) (s t : State) : Prop where
  index   : .index ∉ ws → t.I = s.I
  delay   : .delay ∉ ws → t.DT = s.DT
  sound   : .sound ∉ ws → t.ST = s.ST
  stack   : .stack ∉ ws → t.stack = s.stack
  memory  : .memory ∉ ws → ∀ a, t.mem.readByte a = s.mem.readByte a
  display : .display ∉ ws → ∀ r c, pix t.disp r c = pix s.disp r c
  rng     : .rng ∉ ws → t.rng = s.rng
  status  : .status ∉ ws → t.status = s.status
  key     : t.key = s.key
  cfg     : t.cfg = s.cfg

/-- Every register outside `xs` reads in `t` as it does in `s`. -/
def RegsUnchanged (xs : List RegIdx) (s t : State) : Prop := ∀ r, r ∉ xs → readReg t r = readReg s r

/-- The pc of `t` is `k` bytes after that of `s` (40_control.md R70). The sum is on integers and, after a fetch, is far
below 2^16 (R71); of a sum that would not fit nothing is said. -/
def PcAfter (k : Nat) (s t : State) : Prop := s.pc.toNat + k < 65536 → t.pc.toNat = s.pc.toNat + k

/-- The engine's fault record of a fault the instruction `i` raises in `s` (60_exceptions.md R113). -/
def FaultedBy (code : FaultCode) (i : Instr) (s t : State) : Prop :=
  t = { s with status := .faulted code s.pc (some (encode i)), outcome := some .faulted }

/-! ### The fatal faults -/

/-- The one condition on which an instruction raises a fatal fault (60_exceptions.md R114). -/
def raises (i : Instr) (s : State) : Option FaultCode :=
  match i with
  | .ret => if s.stack = [] then some .callStackUnderflow else none
  | .call _ => if s.stack.length = s.cfg.stackDepth then some .callStackOverflow else none
  | .draw _ _ n => if s.I.toNat + n.toNat > 4096 then some .outOfBoundsAccess else none
  | .storeBcd _ => if s.I.toNat + 3 > 4096 then some .outOfBoundsAccess else none
  | .storeRegs x | .loadRegs x => if s.I.toNat + x.toNat + 1 > 4096 then some .outOfBoundsAccess else none
  | .cls | .jump _ | .skipEqImm _ _ | .skipNeImm _ _ | .skipEqReg _ _ | .loadImm _ _ | .addImm _ _ | .loadReg _ _
  | .or _ _ | .and _ _ | .xor _ _ | .addReg _ _ | .sub _ _ | .shiftRight _ _ | .subN _ _ | .shiftLeft _ _
  | .skipNeReg _ _ | .loadIndex _ | .jumpOffset _ | .random _ _ | .skipKey _ | .skipNotKey _ | .getDelay _
  | .waitKey _ | .setDelay _ | .setSound _ | .addIndex _ | .unsupScrollDown _ | .unsupScrollRight | .unsupScrollLeft
  | .unsupExit | .unsupLow | .unsupHigh | .unsupDrawLarge _ _ | .unsupLargeDigit _ | .unsupSaveFlags _
  | .unsupLoadFlags _ => none

/-! ### The written state of each instruction (10_state.md R29) -/

/-- The registers an instruction may write, VF as a flag among them (R15, R29). -/
def regsWritten : Instr → List RegIdx
  | .loadImm x _ | .loadReg x _ | .or x _ | .and x _ | .xor x _ | .random x _ | .getDelay x | .waitKey x => [x]
  | .addImm x _ | .addReg x _ | .sub x _ | .subN x _ | .shiftRight x _ | .shiftLeft x _ => [x, VF]
  | .draw _ _ _ => [VF]
  | .loadRegs x => (List.range (blockLength x)).map (BitVec.ofNat 4)
  | .cls | .ret | .jump _ | .call _ | .skipEqImm _ _ | .skipNeImm _ _ | .skipEqReg _ _ | .skipNeReg _ _ | .loadIndex _
  | .jumpOffset _ | .skipKey _ | .skipNotKey _ | .setDelay _ | .setSound _ | .addIndex _ | .storeBcd _ | .storeRegs _
  | .unsupScrollDown _ | .unsupScrollRight | .unsupScrollLeft | .unsupExit | .unsupLow | .unsupHigh
  | .unsupDrawLarge _ _ | .unsupLargeDigit _ | .unsupSaveFlags _ | .unsupLoadFlags _ => []

/-- The other parts an instruction may write when it raises no fault (R29); I of Fx55 and Fx65 only when
INDEX_INCREMENT holds. -/
def partsWritten (cfg : Config) : Instr → List Part
  | .cls | .draw _ _ _ => [.display]
  | .ret | .call _ => [.stack]
  | .random _ _ => [.rng]
  | .setDelay _ => [.delay]
  | .setSound _ => [.sound]
  | .loadIndex _ | .addIndex _ => [.index]
  | .storeBcd _ => [.memory]
  | .storeRegs _ => if cfg.indexIncrement then [.memory, .index] else [.memory]
  | .loadRegs _ => if cfg.indexIncrement then [.index] else []
  | .jump _ | .skipEqImm _ _ | .skipNeImm _ _ | .skipEqReg _ _ | .skipNeReg _ _ | .loadImm _ _ | .addImm _ _
  | .loadReg _ _ | .or _ _ | .and _ _ | .xor _ _ | .addReg _ _ | .sub _ _ | .shiftRight _ _ | .subN _ _
  | .shiftLeft _ _ | .jumpOffset _ | .skipKey _ | .skipNotKey _ | .getDelay _ | .waitKey _
  | .unsupScrollDown _ | .unsupScrollRight | .unsupScrollLeft | .unsupExit | .unsupLow | .unsupHigh
  | .unsupDrawLarge _ _ | .unsupLargeDigit _ | .unsupSaveFlags _ | .unsupLoadFlags _ => []

/-- The instructions that write VF as a flag: ADD Vx, kk, ADD Vx, Vy, SUB, SHR, SUBN, SHL and DRW (10_state.md R15). -/
def flagWriter : Instr → Bool
  | .addImm _ _ | .addReg _ _ | .sub _ _ | .shiftRight _ _ | .subN _ _ | .shiftLeft _ _ | .draw _ _ _ => true
  | .cls | .ret | .jump _ | .call _ | .skipEqImm _ _ | .skipNeImm _ _ | .skipEqReg _ _ | .loadImm _ _ | .loadReg _ _
  | .or _ _ | .and _ _ | .xor _ _ | .skipNeReg _ _ | .loadIndex _ | .jumpOffset _ | .random _ _ | .skipKey _
  | .skipNotKey _ | .getDelay _ | .waitKey _ | .setDelay _ | .setSound _ | .addIndex _ | .storeBcd _ | .storeRegs _
  | .loadRegs _ | .unsupScrollDown _ | .unsupScrollRight | .unsupScrollLeft | .unsupExit | .unsupLow | .unsupHigh
  | .unsupDrawLarge _ _ | .unsupLargeDigit _ | .unsupSaveFlags _ | .unsupLoadFlags _ => false

/-! ### Sprites -/

/-- Whether a sprite bit at row `r` and column `c`, counted from the origin without bound, falls on the pixel (pr, pc):
modulo the display size under `wrap` (20_memory.md R41), as it is under `clip` (R42). -/
def fallsOn (edge : DrawEdge) (r c : Nat) (pr : Fin 32) (pc : Fin 64) : Prop :=
  match edge with
  | .wrap => r % 32 = pr.val ∧ c % 64 = pc.val
  | .clip => r = pr.val ∧ c = pc.val

/-- Whether a sprite drawn at (row, col) has a set bit on pixel (pr, pc): sprite byte i stands in row `row + i` and its
bit b, counted from its most significant one, in column `col + b` (R41, R42). -/
def covers (edge : DrawEdge) (row col : Nat) (sprite : List Byte) (pr : Fin 32) (pc : Fin 64) : Prop :=
  ∃ i b byte, sprite[i]? = some byte ∧ b < 8 ∧ byte.getLsbD (7 - b) = true ∧ fallsOn edge (row + i) (col + b) pr pc

end Sys2Proof.Machine
end

