-- ==== Sys2Proof/Certificates/Slice0/Obligations.lean ====
section
/-! DEFINITION. The statements for the provers. Each says which sentences of the spec it formalises; where a clause rests
on a decision of the spec (92_eei_decisions.md D<n>) or on a choice of the model (notes/assumptions/<n>.md), its docstring
says so. -/

open Sys2Proof Sys2Proof.Machine

/-! ### Encoding and decoding (30_encoding.md) -/

/-- Decoding the word of a well-formed instruction gives the instruction back, with every operand at every value its
field admits (section 2; the bit patterns are the spec's general knowledge, log 14). -/
def Obligations.EncodeThenDecodeGivesTheInstruction : Prop :=
  ∀ i : Instr, i.wellFormed = true → decode (encode i) = .ok i

/-- A word that decodes is the word of its instruction, but for the low nibble of families 5 and 9, which the decoder
ignores and the encoder writes as 0 (sections 2 and 4; D18, log 13). -/
def Obligations.DecodeThenEncodeGivesTheWord : Prop :=
  ∀ (w : Word) (i : Instr), decode w = .ok i →
    i.wellFormed = true ∧
      (opNibble w ≠ 0x5#4 ∧ opNibble w ≠ 0x9#4 → encode i = w) ∧
      (opNibble w = 0x5#4 ∨ opNibble w = 0x9#4 → encode i = w &&& 0xFFF0#16)

/-- A word that decodes selects the opcode-table row of its instruction and no other row (section 3, decode priority). -/
def Obligations.DecodeSelectsExactlyItsTableRow : Prop :=
  ∀ (w : Word) (i : Instr), decode w = .ok i →
    rowMatches (rowOf i) w = true ∧ ∀ r ∈ opcodeTable, rowMatches r w = true → r = rowOf i

/-- A word is a DecodeError exactly when it selects no row of the opcode table (section 3; D15 to D20, log 14). -/
def Obligations.DecodeErrorExactlyOffTheTable : Prop :=
  ∀ w : Word, decode w = .error (.decodeError w) ↔ ∀ r ∈ opcodeTable, rowMatches r w = false

/-- Every word of families 5 and 9 is SE Vx, Vy or SNE Vx, Vy whatever its low nibble (section 2; the spec's decision
D18). -/
def Obligations.SkipRegisterIgnoresTheLowNibble : Prop :=
  ∀ (x y : RegIdx) (n : Nibble),
    decode (formatXYN 0x5#4 x y n) = .ok (.skipEqReg x y) ∧ decode (formatXYN 0x9#4 x y n) = .ok (.skipNeReg x y)

/-- The Unsupported words are exactly those the spec lists: 00C0 to 00CF, 00FB to 00FF, Dxy0, Fx30, Fx75, Fx85
(section 3; the spec's decision D19). -/
def Obligations.UnsupportedExactlyTheListedWords : Prop :=
  ∀ w : Word, (∃ i, decode w = .ok i ∧ i.unsupported = true) ↔
    (0x00C0 ≤ w.toNat ∧ w.toNat ≤ 0x00CF) ∨ (0x00FB ≤ w.toNat ∧ w.toNat ≤ 0x00FF) ∨
      (opNibble w = 0xD#4 ∧ fieldN w = 0x0#4) ∨
      (opNibble w = 0xF#4 ∧ (fieldKk w = 0x30#8 ∨ fieldKk w = 0x75#8 ∨ fieldKk w = 0x85#8))

/-- Words written out from the spec's encodings, at least one of each of the sixteen families 0 to F, decode to what they
stand for (section 2; 95_test_vectors.md; the bit patterns are the spec's general knowledge, log 14). -/
def Obligations.WordsOfEachFamilyDecode : Prop :=
  decode 0b0000000011100000#16 = .ok .cls ∧
  decode 0b0001001000001000#16 = .ok (.jump 0x208#12) ∧
  decode 0b0010101010111100#16 = .ok (.call 0xABC#12) ∧
  decode 0b0011001000100000#16 = .ok (.skipEqImm 0x2#4 0x20#8) ∧
  decode 0b0100000000000110#16 = .ok (.skipNeImm 0x0#4 0x06#8) ∧
  decode 0b0101000100100000#16 = .ok (.skipEqReg 0x1#4 0x2#4) ∧
  decode 0b0110111100101010#16 = .ok (.loadImm 0xF#4 0x2A#8) ∧
  decode 0b0111001111111111#16 = .ok (.addImm 0x3#4 0xFF#8) ∧
  decode 0b1000000100100101#16 = .ok (.sub 0x1#4 0x2#4) ∧
  decode 0b1000010000001110#16 = .ok (.shiftLeft 0x4#4 0x0#4) ∧
  decode 0b1001000100100000#16 = .ok (.skipNeReg 0x1#4 0x2#4) ∧
  decode 0b1010001011110000#16 = .ok (.loadIndex 0x2F0#12) ∧
  decode 0b1011001100000000#16 = .ok (.jumpOffset 0x300#12) ∧
  decode 0b1100010100001111#16 = .ok (.random 0x5#4 0x0F#8) ∧
  decode 0b1101000000011111#16 = .ok (.draw 0x0#4 0x1#4 0xF#4) ∧
  decode 0b1110000110011110#16 = .ok (.skipKey 0x1#4) ∧
  decode 0b1111001100110011#16 = .ok (.storeBcd 0x3#4) ∧
  decode 0b1101000000010000#16 = .ok (.unsupDrawLarge 0x0#4 0x1#4) ∧
  decode 0b1111000000101001#16 = .error (.decodeError 0xF029#16)

/-! ### Control transfer (40_control.md) -/

/-- JP nnn (R73): word 1nnn; pc becomes nnn; no flag, no fault, nothing else. -/
def Obligations.JumpGoesToItsAddress : Prop :=
  ∀ (nnn : Addr12) (s : State),
    decode (formatA 0x1#4 nnn) = .ok (.jump nnn) ∧
    ∃ t, exec (.jump nnn) s = .next t ∧ t.pc.toNat = nnn.toNat ∧ RegsUnchanged [] s t ∧ Unchanged [] s t

/-- CALL nnn: with room on the stack, the address of the next instruction is pushed and pc becomes nnn; with
STACK_DEPTH entries it enters the fault CallStackOverflow and changes nothing else (section 2; the spec's decisions D7,
D33 and, for the fault record, D22; log 5, 6). -/
def Obligations.CallPushesTheReturnAddress : Prop :=
  ∀ (nnn : Addr12) (s : State),
    (s.stack.length ≠ s.cfg.stackDepth →
      ∃ t a, exec (.call nnn) s = .next t ∧ t.stack = s.stack ++ [a] ∧
        (s.pc.toNat + 2 < 65536 → a.toNat = s.pc.toNat + 2) ∧ t.pc.toNat = nnn.toNat ∧
        RegsUnchanged [] s t ∧ Unchanged [.stack] s t) ∧
    (s.stack.length = s.cfg.stackDepth →
      ∃ t, exec (.call nnn) s = .next t ∧ FaultedBy .callStackOverflow (.call nnn) s t)

/-- RET: the top of the stack becomes pc as it is and leaves the stack; on an empty stack it enters the fault
CallStackUnderflow and changes nothing else (section 2; the spec's decisions D8, D33 and, for the fault record, D22;
log 5, 6). -/
def Obligations.ReturnPopsTheCallStack : Prop :=
  ∀ s : State,
    (∀ (rest : List Word) (a : Word), s.stack = rest ++ [a] →
      ∃ t, exec .ret s = .next t ∧ t.pc = a ∧ t.stack = rest ∧ RegsUnchanged [] s t ∧ Unchanged [.stack] s t) ∧
    (s.stack = [] → ∃ t, exec .ret s = .next t ∧ FaultedBy .callStackUnderflow .ret s t)

/-- A call and, later, a return with the stack as the call left it: pc is the instruction after the call and the stack
is as before the call (95_test_vectors.md S3). -/
def Obligations.CallThenReturnRestoresPcAndStack : Prop :=
  ∀ (nnn : Addr12) (s : State), s.stack.length ≠ s.cfg.stackDepth →
    ∃ t, exec (.call nnn) s = .next t ∧
      ∀ u : State, u.stack = t.stack → ∃ v, exec .ret u = .next v ∧ v.stack = s.stack ∧ PcAfter 2 s v

/-- SE Vx, kk (R75) and SNE Vx, kk (R76): words 3xkk and 4xkk; pc + 4 or pc + 2 by the comparison; no flag, no fault,
nothing else. -/
def Obligations.SkipOnImmediate : Prop :=
  ∀ (x : RegIdx) (kk : Byte) (s : State),
    decode (formatXK 0x3#4 x kk) = .ok (.skipEqImm x kk) ∧
    decode (formatXK 0x4#4 x kk) = .ok (.skipNeImm x kk) ∧
    (∃ t, exec (.skipEqImm x kk) s = .next t ∧
      PcAfter (if (readReg s x).toNat = kk.toNat then 4 else 2) s t ∧ RegsUnchanged [] s t ∧ Unchanged [] s t) ∧
    (∃ t, exec (.skipNeImm x kk) s = .next t ∧
      PcAfter (if (readReg s x).toNat = kk.toNat then 2 else 4) s t ∧ RegsUnchanged [] s t ∧ Unchanged [] s t)

/-- SE Vx, Vy and SNE Vx, Vy: pc + 4 or pc + 2 by the comparison; no flag, no fault, nothing else (section 2; that their
low nibble is ignored is the spec's decision D18). -/
def Obligations.SkipOnRegister : Prop :=
  ∀ (x y : RegIdx) (s : State),
    (∃ t, exec (.skipEqReg x y) s = .next t ∧
      PcAfter (if (readReg s x).toNat = (readReg s y).toNat then 4 else 2) s t ∧
      RegsUnchanged [] s t ∧ Unchanged [] s t) ∧
    (∃ t, exec (.skipNeReg x y) s = .next t ∧
      PcAfter (if (readReg s x).toNat = (readReg s y).toNat then 2 else 4) s t ∧
      RegsUnchanged [] s t ∧ Unchanged [] s t)

/-- JP V0, nnn: pc becomes nnn + V0 on integers, not reduced to 12 bits; no flag, no fault, nothing else (section 2; the
spec's decision D3). -/
def Obligations.JumpOffsetAddsV0Unmasked : Prop :=
  ∀ (nnn : Addr12) (s : State),
    ∃ t, exec (.jumpOffset nnn) s = .next t ∧ t.pc.toNat = nnn.toNat + (readReg s 0x0#4).toNat ∧
      RegsUnchanged [] s t ∧ Unchanged [] s t

/-! ### Register loads, ALU and random (41_alu.md) -/

/-- LD Vx, kk (R82) and LD Vx, Vy (R84): words 6xkk and 8xy0; Vx takes the value, VF only as a plain destination. -/
def Obligations.LoadsCopyIntoTheRegister : Prop :=
  ∀ (x y : RegIdx) (kk : Byte) (s : State),
    decode (formatXK 0x6#4 x kk) = .ok (.loadImm x kk) ∧
    decode (formatXYN 0x8#4 x y 0x0#4) = .ok (.loadReg x y) ∧
    (∃ t, exec (.loadImm x kk) s = .next t ∧ readReg t x = kk ∧
      PcAfter 2 s t ∧ RegsUnchanged [x] s t ∧ Unchanged [] s t) ∧
    (∃ t, exec (.loadReg x y) s = .next t ∧ readReg t x = readReg s y ∧
      PcAfter 2 s t ∧ RegsUnchanged [x] s t ∧ Unchanged [] s t)

/-- OR, AND, XOR (R85, R86, R87): words 8xy1, 8xy2, 8xy3; each bit of Vx is combined with that of Vy; VF changes only as
the destination. -/
def Obligations.LogicCombinesEachBit : Prop :=
  ∀ (x y : RegIdx) (s : State),
    decode (formatXYN 0x8#4 x y 0x1#4) = .ok (.or x y) ∧
    decode (formatXYN 0x8#4 x y 0x2#4) = .ok (.and x y) ∧
    decode (formatXYN 0x8#4 x y 0x3#4) = .ok (.xor x y) ∧
    (∃ t, exec (.or x y) s = .next t ∧
      (∀ k, (readReg t x).getLsbD k = ((readReg s x).getLsbD k || (readReg s y).getLsbD k)) ∧
      PcAfter 2 s t ∧ RegsUnchanged [x] s t ∧ Unchanged [] s t) ∧
    (∃ t, exec (.and x y) s = .next t ∧
      (∀ k, (readReg t x).getLsbD k = ((readReg s x).getLsbD k && (readReg s y).getLsbD k)) ∧
      PcAfter 2 s t ∧ RegsUnchanged [x] s t ∧ Unchanged [] s t) ∧
    (∃ t, exec (.xor x y) s = .next t ∧
      (∀ k, (readReg t x).getLsbD k = ((readReg s x).getLsbD k ^^ (readReg s y).getLsbD k)) ∧
      PcAfter 2 s t ∧ RegsUnchanged [x] s t ∧ Unchanged [] s t)

/-- ADD Vx, kk (R83): word 7xkk; the sum modulo 256 in Vx and the carry in VF, which wins when x is 15. -/
def Obligations.AddImmediateSetsSumAndCarry : Prop :=
  ∀ (x : RegIdx) (kk : Byte) (s : State),
    decode (formatXK 0x7#4 x kk) = .ok (.addImm x kk) ∧
    ∃ t, exec (.addImm x kk) s = .next t ∧
      (x ≠ VF → (readReg t x).toNat = ((readReg s x).toNat + kk.toNat) % 256) ∧
      (readReg t VF).toNat = (if (readReg s x).toNat + kk.toNat > 255 then 1 else 0) ∧
      PcAfter 2 s t ∧ RegsUnchanged [x, VF] s t ∧ Unchanged [] s t

/-- ADD Vx, Vy (R88): word 8xy4; the sum modulo 256 in Vx and the carry in VF, which wins when x is 15. -/
def Obligations.AddRegisterSetsSumAndCarry : Prop :=
  ∀ (x y : RegIdx) (s : State),
    decode (formatXYN 0x8#4 x y 0x4#4) = .ok (.addReg x y) ∧
    ∃ t, exec (.addReg x y) s = .next t ∧
      (x ≠ VF → (readReg t x).toNat = ((readReg s x).toNat + (readReg s y).toNat) % 256) ∧
      (readReg t VF).toNat = (if (readReg s x).toNat + (readReg s y).toNat > 255 then 1 else 0) ∧
      PcAfter 2 s t ∧ RegsUnchanged [x, VF] s t ∧ Unchanged [] s t

/-- SUB (R89) and SUBN (R91): words 8xy5 and 8xy7; the difference modulo 256 in Vx and "no borrow" in VF, which wins
when x is 15. -/
def Obligations.SubtractSetsDifferenceAndNoBorrow : Prop :=
  ∀ (x y : RegIdx) (s : State),
    decode (formatXYN 0x8#4 x y 0x5#4) = .ok (.sub x y) ∧
    decode (formatXYN 0x8#4 x y 0x7#4) = .ok (.subN x y) ∧
    (∃ t, exec (.sub x y) s = .next t ∧
      (x ≠ VF → ((readReg t x).toNat : Int) = ((readReg s x).toNat - (readReg s y).toNat : Int) % 256) ∧
      (readReg t VF).toNat = (if (readReg s x).toNat ≥ (readReg s y).toNat then 1 else 0) ∧
      PcAfter 2 s t ∧ RegsUnchanged [x, VF] s t ∧ Unchanged [] s t) ∧
    (∃ t, exec (.subN x y) s = .next t ∧
      (x ≠ VF → ((readReg t x).toNat : Int) = ((readReg s y).toNat - (readReg s x).toNat : Int) % 256) ∧
      (readReg t VF).toNat = (if (readReg s y).toNat ≥ (readReg s x).toNat then 1 else 0) ∧
      PcAfter 2 s t ∧ RegsUnchanged [x, VF] s t ∧ Unchanged [] s t)

/-- SHR and SHL: the register that SHIFT_SOURCE selects, halved, or doubled modulo 256, in Vx, and the bit shifted out in
VF, which wins when x is 15 (section 4; the parameter and its meaning are the spec's decision D9). -/
def Obligations.ShiftsByOneAndSetShiftedOutBit : Prop :=
  ∀ (x y : RegIdx) (s : State) (src : Nat),
    src = (readReg s (if s.cfg.shiftSource = .vx then x else y)).toNat →
    (∃ t, exec (.shiftRight x y) s = .next t ∧
      (x ≠ VF → (readReg t x).toNat = src / 2) ∧ (readReg t VF).toNat = src % 2 ∧
      PcAfter 2 s t ∧ RegsUnchanged [x, VF] s t ∧ Unchanged [] s t) ∧
    (∃ t, exec (.shiftLeft x y) s = .next t ∧
      (x ≠ VF → (readReg t x).toNat = src * 2 % 256) ∧ (readReg t VF).toNat = src / 128 ∧
      PcAfter 2 s t ∧ RegsUnchanged [x, VF] s t ∧ Unchanged [] s t)

/-- RND Vx, kk: Vx is the next drawn byte masked by kk, one byte is drawn, nothing else changes. The drawn byte is a free
value, so this holds for every byte it may be (section 5; the spec's decision D21, log 3). -/
def Obligations.RandomMasksTheDrawnByte : Prop :=
  ∀ (x : RegIdx) (kk : Byte) (s : State),
    ∃ t, exec (.random x kk) s = .next t ∧
      (∀ k, (readReg t x).getLsbD k = ((randByte s.rng).1.getLsbD k && kk.getLsbD k)) ∧
      t.rng = (randByte s.rng).2 ∧ PcAfter 2 s t ∧ RegsUnchanged [x] s t ∧ Unchanged [.rng] s t

/-! ### Index register and memory transfers (42_index_memory.md, 20_memory.md) -/

/-- LD I, nnn (R95): word Annn; I becomes nnn. -/
def Obligations.LoadIndexSetsI : Prop :=
  ∀ (nnn : Addr12) (s : State),
    decode (formatA 0xA#4 nnn) = .ok (.loadIndex nnn) ∧
    ∃ t, exec (.loadIndex nnn) s = .next t ∧ t.I.toNat = nnn.toNat ∧
      PcAfter 2 s t ∧ RegsUnchanged [] s t ∧ Unchanged [.index] s t

/-- ADD I, Vx: I becomes (I + Vx) mod 2^16; VF is not written, no fault (section 1; the spec's decision D4). -/
def Obligations.AddIndexWrapsAt16BitsWithoutFlag : Prop :=
  ∀ (x : RegIdx) (s : State),
    ∃ t, exec (.addIndex x) s = .next t ∧ t.I.toNat = (s.I.toNat + (readReg s x).toNat) % 65536 ∧
      PcAfter 2 s t ∧ RegsUnchanged [] s t ∧ Unchanged [.index] s t

/-- LD B, Vx (R97): word Fx33; the three decimal digits at I, I+1, I+2 and no other byte, I unchanged; when I + 3 > 4096
the fault OutOfBoundsAccess and nothing else, pc included (section 2; that the fault is a next state with this record is
the spec's decision D22 and the model's choice, log 5, 6). -/
def Obligations.StoreBcdWritesThreeDigits : Prop :=
  ∀ (x : RegIdx) (s : State),
    decode (formatXK 0xF#4 x 0x33#8) = .ok (.storeBcd x) ∧
    (s.I.toNat + 3 ≤ 4096 →
      ∃ t, exec (.storeBcd x) s = .next t ∧
        (t.mem.readByte s.I.toNat).toNat = (readReg s x).toNat / 100 ∧
        (t.mem.readByte (s.I.toNat + 1)).toNat = (readReg s x).toNat / 10 % 10 ∧
        (t.mem.readByte (s.I.toNat + 2)).toNat = (readReg s x).toNat % 10 ∧
        (∀ a, a < s.I.toNat ∨ s.I.toNat + 3 ≤ a → t.mem.readByte a = s.mem.readByte a) ∧
        PcAfter 2 s t ∧ RegsUnchanged [] s t ∧ Unchanged [.memory] s t) ∧
    (s.I.toNat + 3 > 4096 →
      ∃ t, exec (.storeBcd x) s = .next t ∧ FaultedBy .outOfBoundsAccess (.storeBcd x) s t)

/-- LD [I], Vx: V0 to Vx at I to I + x and no other byte; I advances by x + 1 modulo 2^16 iff INDEX_INCREMENT; when
I + x + 1 > 4096 the fault OutOfBoundsAccess and nothing else (section 2; the parameter is the spec's decision D10, the
fault record D22; log 5, 6). -/
def Obligations.StoreRegistersWritesTheBlock : Prop :=
  ∀ (x : RegIdx) (s : State),
    (s.I.toNat + x.toNat + 1 ≤ 4096 →
      ∃ t, exec (.storeRegs x) s = .next t ∧
        (∀ r : RegIdx, r.toNat ≤ x.toNat → t.mem.readByte (s.I.toNat + r.toNat) = readReg s r) ∧
        (∀ a, a < s.I.toNat ∨ s.I.toNat + x.toNat + 1 ≤ a → t.mem.readByte a = s.mem.readByte a) ∧
        t.I.toNat = (if s.cfg.indexIncrement then (s.I.toNat + x.toNat + 1) % 65536 else s.I.toNat) ∧
        PcAfter 2 s t ∧ RegsUnchanged [] s t ∧ Unchanged [.memory, .index] s t) ∧
    (s.I.toNat + x.toNat + 1 > 4096 →
      ∃ t, exec (.storeRegs x) s = .next t ∧ FaultedBy .outOfBoundsAccess (.storeRegs x) s t)

/-- LD Vx, [I]: V0 to Vx from I to I + x, the registers above x unchanged; I advances by x + 1 modulo 2^16 iff
INDEX_INCREMENT; when I + x + 1 > 4096 the fault OutOfBoundsAccess and nothing else (section 2; D10, D22; log 5, 6). -/
def Obligations.LoadRegistersReadsTheBlock : Prop :=
  ∀ (x : RegIdx) (s : State),
    (s.I.toNat + x.toNat + 1 ≤ 4096 →
      ∃ t, exec (.loadRegs x) s = .next t ∧
        (∀ r : RegIdx,
          readReg t r = if r.toNat ≤ x.toNat then s.mem.readByte (s.I.toNat + r.toNat) else readReg s r) ∧
        t.I.toNat = (if s.cfg.indexIncrement then (s.I.toNat + x.toNat + 1) % 65536 else s.I.toNat) ∧
        PcAfter 2 s t ∧ Unchanged [.index] s t) ∧
    (s.I.toNat + x.toNat + 1 > 4096 →
      ∃ t, exec (.loadRegs x) s = .next t ∧ FaultedBy .outOfBoundsAccess (.loadRegs x) s t)

/-- A register block stored and later loaded from the same address, the memory being as the store left it, is the block
that was stored (section 2). -/
def Obligations.StoreThenLoadRestoresTheBlock : Prop :=
  ∀ (x : RegIdx) (s : State), s.I.toNat + x.toNat + 1 ≤ 4096 →
    ∃ t, exec (.storeRegs x) s = .next t ∧
      ∀ u : State, u.mem = t.mem → u.I = s.I →
        ∃ v, exec (.loadRegs x) u = .next v ∧ ∀ r : RegIdx, r.toNat ≤ x.toNat → readReg v r = readReg s r

/-- Two bytes stored by LD [I], Vx are what a later fetch at their address reads, the first as the high byte
(20_memory.md sections 2 and 8: self-modifying code is defined; byte order D1). -/
def Obligations.StoredBytesAreFetched : Prop :=
  ∀ (x r r' : RegIdx) (s : State) (pc : Word),
    s.I.toNat + x.toNat + 1 ≤ 4096 → r'.toNat = r.toNat + 1 → r'.toNat ≤ x.toNat →
    pc.toNat = s.I.toNat + r.toNat →
    ∃ t w, exec (.storeRegs x) s = .next t ∧ fetch t.mem pc = some w ∧
      w.toNat = (readReg s r).toNat * 256 + (readReg s r').toNat

/-- `MemWrite` in bounds writes exactly its bytes and keeps the canonical form of memory; out of bounds it writes nothing
(20_memory.md section 1; D34). -/
def Obligations.MemWriteWritesExactlyItsBytes : Prop :=
  ∀ (m : Memory) (addr : Nat) (bytes : List Byte),
    (addr + bytes.length ≤ 4096 →
      ∃ m', memWrite m addr bytes = some m' ∧
        (∀ a, m'.readByte a = if addr ≤ a then bytes.getD (a - addr) (m.readByte a) else m.readByte a) ∧
        (m.wf = true → m'.wf = true)) ∧
    (addr + bytes.length > 4096 → memWrite m addr bytes = none)

/-! ### Display, input and timers (43_display_input_timers.md) -/

/-- CLS (R101, R40): word 00E0; every pixel and every buffer byte is 0, VF and everything else unchanged. -/
def Obligations.ClearZeroesTheDisplay : Prop :=
  ∀ s : State,
    decode 0x00E0#16 = .ok .cls ∧
    ∃ t, exec .cls s = .next t ∧ (∀ r c, pix t.disp r c = false) ∧ (∀ k : Fin 256, t.disp[k] = 0#8) ∧
      PcAfter 2 s t ∧ RegsUnchanged [] s t ∧ Unchanged [.display] s t

/-- DRW Vx, Vy, n: with the sprite inside memory, a pixel changes exactly when a set sprite bit falls on it, VF is 1 iff
one of those was 1 before, and nothing else changes; when I + n > 4096 the fault OutOfBoundsAccess and nothing else
(section 1; row and column by DRAW_AXES and the edge by DRAW_EDGE are the spec's decisions D11 to D14, the fault record
D22; log 5, 6). -/
def Obligations.DrawFlipsExactlyTheCoveredPixels : Prop :=
  ∀ (x y : RegIdx) (n : Nibble) (s : State),
    (s.I.toNat + n.toNat ≤ 4096 →
      ∃ t, exec (.draw x y n) s = .next t ∧
        ∀ sprite : List Byte, sprite = (List.range n.toNat).map (fun j => s.mem.readByte (s.I.toNat + j)) →
        ∀ row col : Nat,
          row = (readReg s (if s.cfg.drawAxes = .vxRow then x else y)).toNat →
          col = (readReg s (if s.cfg.drawAxes = .vxRow then y else x)).toNat →
          (∀ r c, pix t.disp r c ≠ pix s.disp r c ↔ covers s.cfg.drawEdge row col sprite r c) ∧
          (readReg t VF = 1#8 ∨ readReg t VF = 0#8) ∧
          (readReg t VF = 1#8 ↔ ∃ r c, pix s.disp r c = true ∧ covers s.cfg.drawEdge row col sprite r c) ∧
          PcAfter 2 s t ∧ RegsUnchanged [VF] s t ∧ Unchanged [.display] s t) ∧
    (s.I.toNat + n.toNat > 4096 →
      ∃ t, exec (.draw x y n) s = .next t ∧ FaultedBy .outOfBoundsAccess (.draw x y n) s t)

/-- The same sprite drawn twice at the same place restores the display; the second draw collides iff the first one set
some pixel, which on a blank display is iff a set sprite bit falls on the screen (95_test_vectors.md S4; 90_conflicts.md
C9; where the first draw only erased pixels the second reports no collision, log 15). -/
def Obligations.DrawTwiceRestoresTheDisplay : Prop :=
  ∀ (x y : RegIdx) (n : Nibble) (s t u : State), s.I.toNat + n.toNat ≤ 4096 →
    exec (.draw x y n) s = .next t →
    u.disp = t.disp → u.mem = s.mem → u.I = s.I → u.cfg = s.cfg →
    readReg u x = readReg s x → readReg u y = readReg s y →
    ∃ v, exec (.draw x y n) u = .next v ∧ (∀ r c, pix v.disp r c = pix s.disp r c) ∧
      (readReg v VF = 1#8 ↔ ∃ r c, pix s.disp r c = false ∧ pix t.disp r c = true) ∧
      ((∀ r c, pix s.disp r c = false) →
        (readReg v VF = 1#8 ↔ ∃ r c, pix t.disp r c ≠ pix s.disp r c))

/-- SKP (R103) and SKNP (R104): words Ex9E and ExA1; pc + 4 or pc + 2 by whether the latch holds the key Vx, which it
never does for a value above 15 (R45); no flag, no fault, nothing else. -/
def Obligations.KeySkipsQueryTheLatch : Prop :=
  ∀ (x : RegIdx) (s : State),
    decode (formatXK 0xE#4 x 0x9E#8) = .ok (.skipKey x) ∧
    decode (formatXK 0xE#4 x 0xA1#8) = .ok (.skipNotKey x) ∧
    ∃ t u, exec (.skipKey x) s = .next t ∧ exec (.skipNotKey x) s = .next u ∧
      RegsUnchanged [] s t ∧ Unchanged [] s t ∧ RegsUnchanged [] s u ∧ Unchanged [] s u ∧
      ((∃ k, s.key = some k ∧ k.toNat = (readReg s x).toNat) → PcAfter 4 s t ∧ PcAfter 2 s u) ∧
      ((¬ ∃ k, s.key = some k ∧ k.toNat = (readReg s x).toNat) → PcAfter 2 s t ∧ PcAfter 4 s u) ∧
      ((readReg s x).toNat > 15 → PcAfter 2 s t ∧ PcAfter 4 s u)

/-- LD Vx, DT (R105), LD DT, Vx (R107), LD ST, Vx (R108): words Fx07, Fx15, Fx18; the timer moves and nothing else. -/
def Obligations.TimerMoves : Prop :=
  ∀ (x : RegIdx) (s : State),
    decode (formatXK 0xF#4 x 0x07#8) = .ok (.getDelay x) ∧
    decode (formatXK 0xF#4 x 0x15#8) = .ok (.setDelay x) ∧
    decode (formatXK 0xF#4 x 0x18#8) = .ok (.setSound x) ∧
    (∃ t, exec (.getDelay x) s = .next t ∧ readReg t x = s.DT ∧
      PcAfter 2 s t ∧ RegsUnchanged [x] s t ∧ Unchanged [] s t) ∧
    (∃ t, exec (.setDelay x) s = .next t ∧ t.DT = readReg s x ∧
      PcAfter 2 s t ∧ RegsUnchanged [] s t ∧ Unchanged [.delay] s t) ∧
    (∃ t, exec (.setSound x) s = .next t ∧ t.ST = readReg s x ∧
      PcAfter 2 s t ∧ RegsUnchanged [] s t ∧ Unchanged [.sound] s t)

/-- LD Vx, K: with a key asserted Vx takes its ordinal and pc advances, the key staying asserted; with none, the step is
Suspended, pc stays and nothing changes (section 3; the spec's decision D25). -/
def Obligations.WaitKeyTakesTheKeyOrSuspends : Prop :=
  ∀ (x : RegIdx) (s : State),
    (∀ k, s.key = some k →
      ∃ t, exec (.waitKey x) s = .next t ∧ (readReg t x).toNat = k.toNat ∧ t.key = some k ∧
        PcAfter 2 s t ∧ RegsUnchanged [x] s t ∧ Unchanged [] s t) ∧
    (s.key = none →
      ∃ t, exec (.waitKey x) s = .next t ∧ t.pc = s.pc ∧ t.outcome = some .suspended ∧
        RegsUnchanged [] s t ∧ Unchanged [] s t)

/-- UnsupportedInstruction (R111), for the ten unsupported rows 00Cn, 00FB, 00FC, 00FD, 00FE, 00FF, Dxy0, Fx30, Fx75 and
Fx85: pc + 2 and nothing else, and the outcome is SkippedUnsupported of the word; where the running engine fetches the
word, that is its step. -/
def Obligations.UnsupportedWordsAreSkipped : Prop :=
  ∀ (w : Word) (i : Instr) (s : State), decode w = .ok i → i.unsupported = true →
    ∃ t, exec i s = .next t ∧ PcAfter 2 s t ∧ RegsUnchanged [] s t ∧ Unchanged [] s t ∧
      t.outcome = some (.skippedUnsupported w) ∧
      (s.status = .running → fetch s.mem s.pc = some w → step s = .next t)

/-! ### The step (40_control.md section 1, 60_exceptions.md) -/

/-- When the two bytes at pc, the first as the high byte, decode to an instruction, a step of a running engine is that
instruction's meaning and nothing around it (40_control.md section 1; byte order D1). -/
def Obligations.StepRunsTheDecodedInstruction : Prop :=
  ∀ (s : State) (w : Word) (i : Instr), s.status = .running → s.pc.toNat + 2 ≤ 4096 →
    w.toNat = (s.mem.readByte s.pc.toNat).toNat * 256 + (s.mem.readByte (s.pc.toNat + 1)).toNat →
    decode w = .ok i → step s = exec i s

/-- DecodeError (R110): the step sets pc to pc + 2, one instruction width, and changes nothing else; status stays
Running, and the outcome is SkippedDecodeError of the word (60_exceptions.md section 1; the outcome is the spec's decision
D27 and stands in the model's own field, log 2; the byte order of the word is D1). -/
def Obligations.UndecodableWordIsSkipped : Prop :=
  ∀ (s : State) (w : Word) (e : DecodeFailure), s.status = .running → s.pc.toNat + 2 ≤ 4096 →
    w.toNat = (s.mem.readByte s.pc.toNat).toNat * 256 + (s.mem.readByte (s.pc.toNat + 1)).toNat →
    decode w = .error e →
    ∃ t, step s = .next t ∧ t.pc.toNat = s.pc.toNat + 2 ∧ RegsUnchanged [] s t ∧ Unchanged [] s t ∧
      t.status = .running ∧ t.outcome = some (.skippedDecodeError w)

/-- A fetch with pc + 2 > 4096 enters the fault OutOfBoundsAccess with no word, pc and everything else unchanged
(20_memory.md section 2, 60_exceptions.md section 2; the record is the spec's decision D22; log 5). -/
def Obligations.FetchPastMemoryFaults : Prop :=
  ∀ s : State, s.status = .running → s.pc.toNat + 2 > 4096 →
    ∃ t, step s = .next t ∧ t.status = .faulted .outOfBoundsAccess s.pc none ∧ t.pc = s.pc ∧
      RegsUnchanged [] s t ∧ Unchanged [.status] s t

/-- While the engine is faulted a call of its step changes nothing (40_control.md section 1; the spec's decision D22;
that the call answers the same state is the model's choice, log 5). -/
def Obligations.FaultedEngineTakesNoStep : Prop :=
  ∀ s : State, s.status ≠ .running → step s = .next s

/-- Every call of the step answers a next state: the model has no stop (log 5). -/
def Obligations.StepAlwaysAnswersANextState : Prop := ∀ s : State, ∃ t, step s = .next t

/-- Each instruction enters the fault of its one condition when that holds, with everything else of the engine unchanged
and the record as the spec says, and otherwise completes with status Running (60_exceptions.md section 2; the record is
the spec's decision D22; log 5, 6). -/
def Obligations.FaultEnteredExactlyOnItsCondition : Prop :=
  ∀ (i : Instr) (s : State), s.status = .running →
    ∃ t, exec i s = .next t ∧
      (∀ code, raises i s = some code → FaultedBy code i s t) ∧ (raises i s = none → t.status = .running)

/-- A fault record made by a step names the pc of the faulting instruction and the word that was fetched there
(60_exceptions.md section 2; D22; that the model computes the word from the instruction is log 6). -/
def Obligations.FaultRecordNamesTheFetchedWord : Prop :=
  ∀ (s t : State) (code : FaultCode) (fpc w : Word), s.status = .running → step s = .next t →
    t.status = .faulted code fpc (some w) →
    fpc = s.pc ∧ t.pc = s.pc ∧
      w.toNat = (s.mem.readByte s.pc.toNat).toNat * 256 + (s.mem.readByte (s.pc.toNat + 1)).toNat

/-- The outcome each instruction returns: SkippedUnsupported for an unsupported word, Faulted on its fault condition,
Suspended for a key wait with no key, Executed otherwise (60_exceptions.md section 1; the spec's decision D27; where the
outcome stands is log 2). -/
def Obligations.OutcomeTellsHowTheInstructionEnded : Prop :=
  ∀ (i : Instr) (s : State),
    ∃ t, exec i s = .next t ∧
      (i.unsupported = true → t.outcome = some (.skippedUnsupported (encode i))) ∧
      (i.unsupported = false → raises i s ≠ none → t.outcome = some .faulted) ∧
      ((∃ x, i = .waitKey x) → s.key = none → t.outcome = some .suspended) ∧
      (i.unsupported = false → raises i s = none → ((∃ x, i = .waitKey x) → s.key ≠ none) →
        t.outcome = some .executed)

/-- A jump to its own address, the conventional end of a program, is Executed for ever: each step changes nothing
(70_reset_and_hazards.md section 2; the spec's decision D32). -/
def Obligations.SelfJumpChangesNothing : Prop :=
  ∀ s : State, s.status = .running → s.atSelfJump = true → step s = .next { s with outcome := some .executed }

/-! ### Rules of the whole machine -/

/-- The register access table: an instruction that raises no fault changes no register, timer, stack, memory byte, pixel,
PRNG state, status or latch but those the table lists for it, apart from pc (10_state.md section 12). -/
def Obligations.OnlyTheListedStateIsWritten : Prop :=
  ∀ (i : Instr) (s t : State), exec i s = .next t → raises i s = none →
    RegsUnchanged (regsWritten i) s t ∧ Unchanged (partsWritten s.cfg i) s t

/-- VF after a step: the seven flag writers leave 0 or 1 in it, and every other instruction leaves it unchanged unless its
destination is register 15, or 15 lies in the block it loads (10_state.md section 2). -/
def Obligations.OnlyFlagWritersChangeVF : Prop :=
  ∀ (i : Instr) (s t : State), exec i s = .next t →
    (flagWriter i = true → raises i s = none → readReg t VF = 0#8 ∨ readReg t VF = 1#8) ∧
    (flagWriter i = false → VF ∉ regsWritten i → readReg t VF = readReg s VF)

/-- No step changes the input latch or the parameters (20_memory.md section 6; 10_state.md section 11; that the parameters
stand in the state is log 1). -/
def Obligations.StepKeepsLatchAndParameters : Prop :=
  ∀ s t : State, step s = .next t → t.key = s.key ∧ t.cfg = s.cfg

/-- No instruction reads the sound timer: with another value in ST a step does the same to everything else, and leaves
ST either as it was or as the first step leaves it (10_state.md section 5). -/
def Obligations.NoStepReadsTheSoundTimer : Prop :=
  ∀ (s t : State) (z : Byte), s.status = .running → step s = .next t →
    ∃ u, step { s with ST := z } = .next u ∧ { u with ST := t.ST } = t ∧ (u = t ∨ (u.ST = z ∧ t.ST = s.ST))

/-- Only RND reads or advances the PRNG: with another PRNG state a step that does not run RND does the same to everything
else and leaves the PRNG state alone (10_state.md section 10; D21, log 3). -/
def Obligations.OnlyRandomUsesThePrng : Prop :=
  ∀ (s t : State) (g : Rng), s.status = .running → step s = .next t →
    (∀ w x kk, fetch s.mem s.pc = some w → decode w ≠ .ok (.random x kk)) →
    t.rng = s.rng ∧ ∃ u, step { s with rng := g } = .next u ∧ u = { t with rng := g }

/-- The recorded outcome of the last step is no state of the block: a step does the same whatever it is (10_state.md
section 1; log 2). -/
def Obligations.NoStepReadsTheLastOutcome : Prop :=
  ∀ (s t : State) (o : Option StepOutcome), s.status = .running → step s = .next t →
    step { s with outcome := o } = .next t

/-! ### The invariant -/

/-- Every step keeps the invariant: memory in canonical form, at most STACK_DEPTH return addresses of at most 0x1000, pc
at most 0x10FE (10_state.md sections 3 and 6, 40_control.md section 1; the canonical form is the model's, log 8). -/
def Obligations.EveryStepKeepsTheInvariant : Prop := ∀ s t : State, Inv s → step s = .next t → Inv t

/-- The invariant holds after reset, for every value of the parameters and the seed (70_reset_and_hazards.md section 1). -/
def Obligations.ResetMeetsTheInvariant : Prop :=
  (∀ (cfg : Config) (seed : Nat), Inv (State.resetWith cfg seed)) ∧ Inv State.reset

/-- Every session keeps the invariant: from any session whose engine meets it, in any phase, one transaction of any kind
gives an engine that meets it; so does any list of transactions, from a block just constructed in particular
(70_reset_and_hazards.md section 2; the spec's decisions D26, D30; the canonical form of memory in the invariant is log 8,
the session's phases are log 11). -/
def Obligations.EverySessionKeepsTheInvariant : Prop :=
  (∀ (h : Session) (tr : Transaction), Inv h.engine → Inv (transact tr h).1.engine) ∧
  (∀ (h : Session) (ts : List Transaction), Inv h.engine → Inv (Session.run ts h).engine) ∧
  (∀ (cfg : Config) (seed : Nat) (ts : List Transaction), Inv (Session.run ts (Session.boot cfg seed)).engine)

/-! ### Reset and the host's transactions (70_reset_and_hazards.md, 20_memory.md sections 5 and 6) -/

/-- Reset: pc is 0x200 (the source's value); every register, I and both timers are 0, the stack is empty, every memory byte
and every pixel is 0, no key is asserted, the PRNG has the seed, and status is Running (section 1; all but pc are the
spec's decisions D5, D6, D21, D36, log 4). -/
def Obligations.ResetLeavesTheListedValues : Prop :=
  ∀ (cfg : Config) (seed : Nat) (s : State), s = State.resetWith cfg seed →
    s.pc.toNat = 0x200 ∧ (∀ r, readReg s r = 0#8) ∧ s.I = 0#16 ∧ s.DT = 0#8 ∧ s.ST = 0#8 ∧ s.stack = [] ∧
    (∀ a, s.mem.readByte a = 0#8) ∧ (∀ r c, pix s.disp r c = false) ∧ s.key = none ∧ s.rng.seed = seed ∧
    s.status = .running ∧ s.cfg = cfg

/-- Only a reset leaves Faulted: every other transaction leaves the status of a faulted engine as it is, and a reset makes
it Running (section 1; the spec's decision D22). -/
def Obligations.OnlyResetLeavesFaulted : Prop :=
  ∀ (h : Session) (tr : Transaction), h.engine.status ≠ .running →
    ((∀ seed, tr ≠ .reset seed) → (transact tr h).1.engine.status = h.engine.status) ∧
    ((∃ seed, tr = .reset seed) → (transact tr h).1.engine.status = .running)

/-- ROM loading: after a reset, an image of at most 3584 bytes lies at 0x200 upward and every other byte and everything
else is unchanged; a longer one is refused, the engine is as it was, and no step may then be taken (section 1; the spec's
decision D30; the session's phases are log 11). -/
def Obligations.RomLoadCopiesVerbatimOrRefuses : Prop :=
  ∀ (h : Session) (rom : List Byte), h.phase = .fresh →
    (rom.length ≤ 3584 →
      (transact (.loadRom rom) h).2 = .none ∧ (transact (.loadRom rom) h).1.phase = .started ∧
      (∀ (j : Nat) (b : Byte), rom[j]? = some b →
        (transact (.loadRom rom) h).1.engine.mem.readByte (0x200 + j) = b) ∧
      (∀ a, a < 0x200 ∨ 0x200 + rom.length ≤ a →
        (transact (.loadRom rom) h).1.engine.mem.readByte a = h.engine.mem.readByte a) ∧
      (transact (.loadRom rom) h).1.engine.pc = h.engine.pc ∧
      RegsUnchanged [] h.engine (transact (.loadRom rom) h).1.engine ∧
      Unchanged [.memory] h.engine (transact (.loadRom rom) h).1.engine) ∧
    (rom.length > 3584 →
      (transact (.loadRom rom) h).2 = .refused ∧ (transact (.loadRom rom) h).1.engine = h.engine ∧
      transact .step (transact (.loadRom rom) h).1 = ((transact (.loadRom rom) h).1, .refused))

/-- tick_timers: each timer that is not 0 goes down by 1 and one that is 0 stays 0; nothing else changes (section 2; the
spec's decision D26). -/
def Obligations.TickDecrementsBothTimersDownToZero : Prop :=
  ∀ h : Session,
    (transact .tickTimers h).1.engine.DT.toNat = h.engine.DT.toNat - 1 ∧
    (transact .tickTimers h).1.engine.ST.toNat = h.engine.ST.toNat - 1 ∧
    (transact .tickTimers h).1.engine.pc = h.engine.pc ∧
    RegsUnchanged [] h.engine (transact .tickTimers h).1.engine ∧
    Unchanged [.delay, .sound] h.engine (transact .tickTimers h).1.engine

/-- press makes its key the only asserted one, and is refused with no effect above 15; release clears the latch
(20_memory.md section 6; the spec's decision D31). -/
def Obligations.PressReplacesAndReleaseClearsTheKey : Prop :=
  ∀ (h : Session) (k : Nat),
    (k ≤ 15 → ∃ key : Key, key.toNat = k ∧
      transact (.press k) h = ({ h with engine := { h.engine with key := some key } }, .none)) ∧
    (k > 15 → transact (.press k) h = (h, .refused)) ∧
    transact .release h = ({ h with engine := { h.engine with key := none } }, .none)

/-- The host's display read returns the buffer bytes from row * 8 + col div 8, each byte's bits being eight neighbouring
pixels with the leftmost as its most significant bit; a range past byte 255 is refused; nothing changes (20_memory.md
section 5; the spec's decisions D13, D29). That the byte range is all that is checked, so that a row or column off the
screen, or an empty range at the end of the buffer, is read too, is the model's reading of section 5 and D29 (log 10,
DEDUCED, unsafe for that case). -/
def Obligations.HostReadReturnsTheBufferBytes : Prop :=
  ∀ (h : Session) (row col len : Nat),
    (row * 8 + col / 8 + len ≤ 256 →
      ∃ bs, transact (.read row col len) h = (h, .bytes bs) ∧ bs.length = len ∧
        ∀ (j b : Nat) (byte : Byte) (r : Fin 32) (c : Fin 64), bs[j]? = some byte → b < 8 →
          r.val * 64 + c.val = (row * 8 + col / 8 + j) * 8 + b → byte.getLsbD (7 - b) = pix h.engine.disp r c) ∧
    (row * 8 + col / 8 + len > 256 → transact (.read row col len) h = (h, .refused))
end

