-- ==== Sys2Proof/Laws/Decode.lean ====
section
/-! SUPPORT. The fields of a word built by a format (30_encoding.md R54, R55), and the word its fields build: with these
the decoder and the encoder are compared without looking at bits again. -/

namespace Sys2Proof

/-! ### Fields as numbers -/

theorem opNibble_toNat (w : Word) : (opNibble w).toNat = w.toNat / 4096 % 16 := by
  simp [opNibble, BitVec.extractLsb'_toNat, Nat.shiftRight_eq_div_pow]

theorem fieldX_toNat (w : Word) : (fieldX w).toNat = w.toNat / 256 % 16 := by
  simp [fieldX, BitVec.extractLsb'_toNat, Nat.shiftRight_eq_div_pow]

theorem fieldY_toNat (w : Word) : (fieldY w).toNat = w.toNat / 16 % 16 := by
  simp [fieldY, BitVec.extractLsb'_toNat, Nat.shiftRight_eq_div_pow]

theorem fieldN_toNat (w : Word) : (fieldN w).toNat = w.toNat % 16 := by
  simp [fieldN, BitVec.extractLsb'_toNat]

theorem fieldKk_toNat (w : Word) : (fieldKk w).toNat = w.toNat % 256 := by
  simp [fieldKk, BitVec.extractLsb'_toNat]

theorem fieldNnn_toNat (w : Word) : (fieldNnn w).toNat = w.toNat % 4096 := by
  simp [fieldNnn, BitVec.extractLsb'_toNat]

/-- Concatenation as the spec writes it, `a * 2^k + b` (00_scope.md R7). -/
theorem append_toNat {m n : Nat} (a : BitVec m) (b : BitVec n) : (a ++ b).toNat = a.toNat * 2 ^ n + b.toNat := by
  rw [BitVec.toNat_append, ← Nat.shiftLeft_add_eq_or_of_lt b.isLt, Nat.shiftLeft_eq]

theorem formatA_toNat (op : Nibble) (nnn : Addr12) : (formatA op nnn).toNat = op.toNat * 4096 + nnn.toNat := by
  rw [formatA, append_toNat]; norm_num

theorem formatXK_toNat (op : Nibble) (x : RegIdx) (kk : Byte) :
    (formatXK op x kk).toNat = op.toNat * 4096 + x.toNat * 256 + kk.toNat := by
  rw [formatXK, append_toNat, append_toNat]; omega

theorem formatXYN_toNat (op : Nibble) (x y : RegIdx) (n : Nibble) :
    (formatXYN op x y n).toNat = op.toNat * 4096 + x.toNat * 256 + y.toNat * 16 + n.toNat := by
  rw [formatXYN, append_toNat, append_toNat, append_toNat]; omega

/-! ### The fields of a built word -/

section Fields
variable (op : Nibble) (nnn : Addr12) (x y : RegIdx) (kk : Byte) (n : Nibble)

@[simp] theorem opNibble_formatA : opNibble (formatA op nnn) = op := by
  apply BitVec.eq_of_toNat_eq
  rw [opNibble_toNat, formatA_toNat]
  have := op.isLt; have := nnn.isLt; omega

@[simp] theorem fieldNnn_formatA : fieldNnn (formatA op nnn) = nnn := by
  apply BitVec.eq_of_toNat_eq
  rw [fieldNnn_toNat, formatA_toNat]
  have := op.isLt; have := nnn.isLt; omega

@[simp] theorem opNibble_formatXK : opNibble (formatXK op x kk) = op := by
  apply BitVec.eq_of_toNat_eq
  rw [opNibble_toNat, formatXK_toNat]
  have := op.isLt; have := x.isLt; have := kk.isLt; omega

@[simp] theorem fieldX_formatXK : fieldX (formatXK op x kk) = x := by
  apply BitVec.eq_of_toNat_eq
  rw [fieldX_toNat, formatXK_toNat]
  have := op.isLt; have := x.isLt; have := kk.isLt; omega

@[simp] theorem fieldKk_formatXK : fieldKk (formatXK op x kk) = kk := by
  apply BitVec.eq_of_toNat_eq
  rw [fieldKk_toNat, formatXK_toNat]
  have := op.isLt; have := x.isLt; have := kk.isLt; omega

@[simp] theorem opNibble_formatXYN : opNibble (formatXYN op x y n) = op := by
  apply BitVec.eq_of_toNat_eq
  rw [opNibble_toNat, formatXYN_toNat]
  have := op.isLt; have := x.isLt; have := y.isLt; have := n.isLt; omega

@[simp] theorem fieldX_formatXYN : fieldX (formatXYN op x y n) = x := by
  apply BitVec.eq_of_toNat_eq
  rw [fieldX_toNat, formatXYN_toNat]
  have := op.isLt; have := x.isLt; have := y.isLt; have := n.isLt; omega

@[simp] theorem fieldY_formatXYN : fieldY (formatXYN op x y n) = y := by
  apply BitVec.eq_of_toNat_eq
  rw [fieldY_toNat, formatXYN_toNat]
  have := op.isLt; have := x.isLt; have := y.isLt; have := n.isLt; omega

@[simp] theorem fieldN_formatXYN : fieldN (formatXYN op x y n) = n := by
  apply BitVec.eq_of_toNat_eq
  rw [fieldN_toNat, formatXYN_toNat]
  have := op.isLt; have := x.isLt; have := y.isLt; have := n.isLt; omega

end Fields

/-! ### A word is built from its fields -/

theorem formatA_of_fields (w : Word) : formatA (opNibble w) (fieldNnn w) = w := by
  apply BitVec.eq_of_toNat_eq
  rw [formatA_toNat, opNibble_toNat, fieldNnn_toNat]
  have := w.isLt; omega

theorem formatXK_of_fields (w : Word) : formatXK (opNibble w) (fieldX w) (fieldKk w) = w := by
  apply BitVec.eq_of_toNat_eq
  rw [formatXK_toNat, opNibble_toNat, fieldX_toNat, fieldKk_toNat]
  have := w.isLt; omega

theorem formatXYN_of_fields (w : Word) : formatXYN (opNibble w) (fieldX w) (fieldY w) (fieldN w) = w := by
  apply BitVec.eq_of_toNat_eq
  rw [formatXYN_toNat, opNibble_toNat, fieldX_toNat, fieldY_toNat, fieldN_toNat]
  have := w.isLt; omega

/-- The two bytes of a word, put together big-endian, are the word (20_memory.md R32). -/
theorem bigEndian_toNat (b0 b1 : Byte) : (bigEndian b0 b1).toNat = b0.toNat * 256 + b1.toNat := append_toNat b0 b1

theorem decodeBytes_wordBytes (w : Word) (rest : List Byte) :
    decodeBytes (wordBytes w ++ rest) = (decode w).map (·, rest) := by
  have h : bigEndian (w.extractLsb' 8 8) (w.extractLsb' 0 8) = w := by
    apply BitVec.eq_of_toNat_eq
    rw [bigEndian_toNat]
    simp only [BitVec.extractLsb'_toNat, Nat.shiftRight_eq_div_pow]
    have := w.isLt; omega
  simp [wordBytes, decodeBytes, h]

end Sys2Proof
end

