-- ==== Sys2Proof/Laws/Display.lean ====
section
/-! SUPPORT. The display (20_memory.md R39 to R43): what a pixel reads after one flip, after clearing, and after one
sprite bit, byte or row of a draw. -/

namespace Sys2Proof.Machine

/-- Two pixels that share a byte and a bit are one pixel (20_memory.md R39). -/
theorem pix_position_injective {r r' : Fin 32} {c c' : Fin 64} (hbyte : pixByte r c = pixByte r' c')
    (hbit : pixBit c = pixBit c') : r = r' ∧ c = c' := by
  have := r.isLt; have := r'.isLt; have := c.isLt; have := c'.isLt
  unfold pixByte at hbyte
  unfold pixBit at hbit
  constructor <;> apply Fin.ext <;> omega

theorem pixBit_lt (c : Fin 64) : pixBit c < 8 := by unfold pixBit; omega

/-- Flipping a pixel changes that pixel and no other. -/
theorem pix_flipPix (d : Display) (r r' : Fin 32) (c c' : Fin 64) :
    pix (flipPix d r c) r' c' = (pix d r' c' ^^ decide (r' = r ∧ c' = c)) := by
  have hbit := pixBit_lt c'
  by_cases hbyte : pixByte r c = pixByte r' c'
  · have hiff : pixBit c' = pixBit c ↔ r' = r ∧ c' = c := by
      constructor
      · intro h; exact pix_position_injective hbyte.symm h
      · rintro ⟨rfl, rfl⟩; rfl
    simp only [pix, flipPix, ← hbyte]
    simp only [Vector.getElem_set_self, BitVec.getLsbD_xor, BitVec.getLsbD_twoPow, pixBit_lt, decide_true,
      Bool.true_and, eq_comm (a := pixBit c), hiff]
  · have hne : ¬ (r' = r ∧ c' = c) := by rintro ⟨rfl, rfl⟩; exact hbyte rfl
    simp [pix, flipPix, hbyte, hne]

/-- Every pixel of the cleared display is 0 (20_memory.md R40). -/
@[simp] theorem pix_dispClear (r : Fin 32) (c : Fin 64) : pix dispClear r c = false := by
  simp [pix, dispClear]

/-! ### A draw as a list of pixels -/

/-- One set sprite bit drawn on pixel `p`: the pixel flips, and a collision is seen if it was 1. -/
def plot (acc : Display × Bool) (p : Fin 32 × Fin 64) : Display × Bool :=
  (flipPix acc.1 p.1 p.2, acc.2 || pix acc.1 p.1 p.2)

/-- The pixels of one sprite byte's set bits, left to right. -/
def rowPixels (edge : DrawEdge) (byte : Byte) (r col : Nat) : List (Fin 32 × Fin 64) :=
  [0, 1, 2, 3, 4, 5, 6, 7].filterMap fun b => if spriteBit byte b then place edge r (col + b) else none

/-- The pixels of a sprite's set bits, row by row. -/
def spritePixels (edge : DrawEdge) (row col : Nat) : List Byte → List (Fin 32 × Fin 64)
  | [] => []
  | byte :: rest => rowPixels edge byte row col ++ spritePixels edge (row + 1) col rest

theorem drawByte_eq_foldl (edge : DrawEdge) (byte : Byte) (r col : Nat) (acc : Display × Bool) :
    drawByte edge byte r col acc = (rowPixels edge byte r col).foldl plot acc := by
  unfold drawByte rowPixels
  rw [List.foldl_filterMap]
  congr
  funext a b
  unfold drawBit plot
  by_cases hbit : spriteBit byte b = true
  · simp only [hbit, if_true]
    cases place edge r (col + b) <;> rfl
  · simp [hbit]

/-- A draw plots the sprite's pixels one after the other. -/
theorem dispDraw_eq_foldl (edge : DrawEdge) (d : Display) (row col : Nat) (sprite : List Byte) :
    dispDraw edge d row col sprite = (spritePixels edge row col sprite).foldl plot (d, false) := by
  suffices h : ∀ acc, drawRows edge row col sprite acc = (spritePixels edge row col sprite).foldl plot acc from
    h (d, false)
  intro acc
  induction sprite generalizing row acc with
  | nil => rfl
  | cons byte rest ih => rw [drawRows, ih, drawByte_eq_foldl, spritePixels, List.foldl_append]

/-- Plotting different pixels flips exactly them, and sees a collision iff one of them was 1. -/
theorem foldl_plot {ps : List (Fin 32 × Fin 64)} (hps : ps.Nodup) (d : Display) (coll : Bool) :
    (∀ r c, pix (ps.foldl plot (d, coll)).1 r c = (pix d r c ^^ decide ((r, c) ∈ ps))) ∧
      (ps.foldl plot (d, coll)).2 = (coll || ps.any fun p => pix d p.1 p.2) := by
  induction ps generalizing d coll with
  | nil => simp
  | cons p ps ih =>
    obtain ⟨hp, hps'⟩ := List.nodup_cons.1 hps
    obtain ⟨hpix, hcoll⟩ := ih hps' (flipPix d p.1 p.2) (coll || pix d p.1 p.2)
    refine ⟨fun r c => ?_, ?_⟩
    · rw [List.foldl_cons, plot, hpix, pix_flipPix]
      by_cases hrc : (r, c) = p
      · subst hrc; simp [hp]
      · have hne : ¬ (r = p.1 ∧ c = p.2) := fun h => hrc (Prod.ext h.1 h.2)
        simp [hrc, hne]
    · rw [List.foldl_cons, plot, hcoll, List.any_cons, Bool.or_assoc]
      have hrest : ∀ q ∈ ps, pix (flipPix d p.1 p.2) q.1 q.2 = pix d q.1 q.2 := by
        intro q hq
        have hne : ¬ (q.1 = p.1 ∧ q.2 = p.2) := fun h => hp (Prod.ext h.1 h.2 ▸ hq)
        simp [pix_flipPix, hne]
      have hany : (ps.any fun q => pix (flipPix d p.1 p.2) q.1 q.2) = ps.any fun q => pix d q.1 q.2 := by
        rw [Bool.eq_iff_iff, List.any_eq_true, List.any_eq_true]
        exact exists_congr fun q => and_congr_right fun hq => by rw [hrest q hq]
      rw [hany]

/-- Which pixel a sprite bit falls on (20_memory.md R41, R42). -/
theorem place_eq_some_iff {edge : DrawEdge} {r c : Nat} {p : Fin 32 × Fin 64} :
    place edge r c = some p ↔
      match edge with
      | .wrap => r % 32 = p.1.val ∧ c % 64 = p.2.val
      | .clip => r = p.1.val ∧ c = p.2.val := by
  cases edge with
  | wrap => simp [place, Prod.ext_iff, Fin.ext_iff, Fin.ofNat]
  | clip =>
    have := p.1.isLt; have := p.2.isLt
    simp only [place]
    split
    · simp [Prod.ext_iff, Fin.ext_iff]
    · simp; omega

theorem mem_rowPixels {edge : DrawEdge} {byte : Byte} {r col : Nat} {p : Fin 32 × Fin 64} :
    p ∈ rowPixels edge byte r col ↔ ∃ b, b < 8 ∧ spriteBit byte b = true ∧ place edge r (col + b) = some p := by
  unfold rowPixels
  rw [List.mem_filterMap]
  constructor
  · rintro ⟨b, hb, h⟩
    by_cases hbit : spriteBit byte b = true
    · exact ⟨b, by simp at hb; omega, hbit, by simpa [hbit] using h⟩
    · simp [hbit] at h
  · rintro ⟨b, hb, hbit, h⟩
    exact ⟨b, by simp; omega, by simpa [hbit] using h⟩

/-- A pixel belongs to a drawn sprite iff a set bit of one of its bytes falls on it. -/
theorem mem_spritePixels {edge : DrawEdge} {row col : Nat} {sprite : List Byte} {p : Fin 32 × Fin 64} :
    p ∈ spritePixels edge row col sprite ↔
      ∃ i b, ∃ byte, sprite[i]? = some byte ∧ b < 8 ∧ spriteBit byte b = true ∧
        place edge (row + i) (col + b) = some p := by
  induction sprite generalizing row with
  | nil => simp [spritePixels]
  | cons byte rest ih =>
    rw [spritePixels, List.mem_append, mem_rowPixels, ih]
    constructor
    · rintro (⟨b, h⟩ | ⟨i, b, byte', h1, h2, h3, h4⟩)
      · exact ⟨0, b, byte, rfl, h⟩
      · exact ⟨i + 1, b, byte', h1, h2, h3, by rwa [show row + (i + 1) = row + 1 + i by omega]⟩
    · rintro ⟨i, b, byte', h1, h2, h3, h4⟩
      cases i with
      | zero =>
        obtain rfl : byte = byte' := by simpa using h1
        exact .inl ⟨b, h2, h3, h4⟩
      | succ i =>
        exact .inr ⟨i, b, byte', h1, h2, h3, by rwa [show row + 1 + i = row + (i + 1) by omega]⟩

theorem rowPixels_nodup (edge : DrawEdge) (byte : Byte) (r col : Nat) : (rowPixels edge byte r col).Nodup := by
  have hbits : List.Pairwise (fun b b' => b < b' ∧ b' < 8) [0, 1, 2, 3, 4, 5, 6, 7] := by decide
  unfold rowPixels
  rw [List.Nodup, List.pairwise_filterMap]
  refine hbits.imp ?_
  rintro b b' ⟨hlt, h8⟩ p hp q hq rfl
  have hb : place edge r (col + b) = some p := by
    by_cases h : spriteBit byte b = true
    · simpa [h] using hp
    · simp [h] at hp
  have hb' : place edge r (col + b') = some p := by
    by_cases h : spriteBit byte b' = true
    · simpa [h] using hq
    · simp [h] at hq
  rw [place_eq_some_iff] at hb hb'
  cases edge <;> simp only at hb hb' <;> omega

/-- No pixel is visited twice in one draw of at most 32 rows (20_memory.md R41). -/
theorem spritePixels_nodup (edge : DrawEdge) (row col : Nat) (sprite : List Byte) (h : sprite.length ≤ 32) :
    (spritePixels edge row col sprite).Nodup := by
  induction sprite generalizing row with
  | nil => simp [spritePixels]
  | cons byte rest ih =>
    simp only [List.length_cons] at h
    rw [spritePixels, List.nodup_append]
    refine ⟨rowPixels_nodup .., ih (row + 1) (by omega), ?_⟩
    rintro p hp q hq rfl
    obtain ⟨b, -, -, hb⟩ := mem_rowPixels.1 hp
    obtain ⟨i, b', byte', hi, -, -, hb'⟩ := mem_spritePixels.1 hq
    have hlen : i < rest.length := (List.getElem?_eq_some_iff.1 hi).1
    rw [place_eq_some_iff] at hb hb'
    cases edge <;> simp only at hb hb' <;> omega

/-- What a draw of at most 32 sprite bytes does: it flips exactly the sprite's pixels, and collides iff one of them was
1 (20_memory.md R41, R42). -/
theorem dispDraw_spec (edge : DrawEdge) (d : Display) (row col : Nat) (sprite : List Byte) (h : sprite.length ≤ 32) :
    (∀ r c, pix (dispDraw edge d row col sprite).1 r c =
        (pix d r c ^^ decide ((r, c) ∈ spritePixels edge row col sprite))) ∧
      (dispDraw edge d row col sprite).2 = (spritePixels edge row col sprite).any fun p => pix d p.1 p.2 := by
  rw [dispDraw_eq_foldl]
  simpa using foldl_plot (spritePixels_nodup edge row col sprite h) d false

end Sys2Proof.Machine
end

