-- ==== Sys2Proof/Laws/Memory.lean ====
section
/-! SUPPORT. The laws of memory: what a read sees after a write, and that every write keeps the canonical form. -/

namespace Sys2Proof.Machine

namespace Memory

@[simp] theorem readByte_nil (a : Nat) : readByte [] a = unlisted := rfl

@[simp] theorem readByte_cons (k : Nat) (b : Byte) (rest : Memory) (a : Nat) :
    readByte ((k, b) :: rest) a = if k = a then b else readByte rest a := rfl

theorem readByte_erase_same (m : Memory) (a : Nat) : (erase m a).readByte a = unlisted := by
  induction m with
  | nil => rfl
  | cons cell rest ih =>
    obtain ⟨k, c⟩ := cell
    by_cases h : k = a <;> simp [erase, h, ih]

theorem readByte_erase_other (m : Memory) {a r : Nat} (hr : r ≠ a) : (erase m a).readByte r = m.readByte r := by
  induction m with
  | nil => rfl
  | cons cell rest ih =>
    obtain ⟨k, c⟩ := cell
    by_cases h : k = a <;> simp [erase, h, ih, Ne.symm hr]

theorem readByte_insert_other (m : Memory) {a r : Nat} (b : Byte) (hr : r ≠ a) :
    (insert m a b).readByte r = m.readByte r := by
  induction m with
  | nil => simp [insert, Ne.symm hr]
  | cons cell rest ih =>
    obtain ⟨k, c⟩ := cell
    by_cases h : a < k <;> simp [insert, h, ih, Ne.symm hr]

theorem readByte_insert_erase_same (m : Memory) (a : Nat) (b : Byte) :
    (insert (erase m a) a b).readByte a = b := by
  induction m with
  | nil => simp [erase, insert]
  | cons cell rest ih =>
    obtain ⟨k, c⟩ := cell
    by_cases h : k = a
    · simpa [erase, h] using ih
    · by_cases h' : a < k <;> simp [erase, h, insert, h', ih]

/-- A byte reads as it was last written. -/
@[simp] theorem readByte_writeByte_same (m : Memory) (a : Nat) (b : Byte) : (writeByte m a b).readByte a = b := by
  by_cases h : b = unlisted
  · simp [writeByte, h, readByte_erase_same]
  · simp [writeByte, h, readByte_insert_erase_same]

/-- A write leaves every other byte alone. -/
theorem readByte_writeByte_other (m : Memory) {a k : Nat} (b : Byte) (hk : k ≠ a) :
    (writeByte m a b).readByte k = m.readByte k := by
  by_cases h : b = unlisted
  · simp [writeByte, h, readByte_erase_other m hk]
  · simp [writeByte, h, readByte_insert_other _ b hk, readByte_erase_other m hk]

/-- Bytes written from `a` on leave the addresses below `a` alone. -/
theorem readByte_writeBytes_below (bs : List Byte) (m : Memory) {a k : Nat} (hk : k < a) :
    (writeBytes m a bs).readByte k = m.readByte k := by
  induction bs generalizing m a with
  | nil => rfl
  | cons b rest ih =>
    rw [writeBytes, ih _ (by omega), readByte_writeByte_other _ _ (by omega)]

/-- Bytes written from `a` on leave the addresses past their end alone. -/
theorem readByte_writeBytes_above (bs : List Byte) (m : Memory) {a k : Nat} (hk : a + bs.length ≤ k) :
    (writeBytes m a bs).readByte k = m.readByte k := by
  induction bs generalizing m a with
  | nil => rfl
  | cons b rest ih =>
    simp only [List.length_cons] at hk
    rw [writeBytes, ih _ (by omega), readByte_writeByte_other _ _ (by omega)]

/-- Byte `j` of the bytes written at `a` reads at `a + j`. -/
theorem readByte_writeBytes_inside (bs : List Byte) (m : Memory) (a : Nat) {j : Nat} (hj : j < bs.length) :
    (writeBytes m a bs).readByte (a + j) = bs[j] := by
  induction bs generalizing m a j with
  | nil => simp at hj
  | cons b rest ih =>
    rw [writeBytes]
    cases j with
    | zero => rw [readByte_writeBytes_below _ _ (by omega)]; simp
    | succ j =>
      have := ih (writeByte m a b) (a + 1) (j := j) (by simpa using hj)
      rw [show a + (j + 1) = a + 1 + j by omega, this]
      rfl

/-! ### The canonical form -/

theorem wfFrom_mono {lo lo' : Nat} (h : lo ≤ lo') : ∀ m : Memory, wfFrom lo' m = true → wfFrom lo m = true
  | [], _ => rfl
  | (k, b) :: rest, hm => by
    simp only [wfFrom, Bool.and_eq_true, decide_eq_true_eq] at hm ⊢
    exact ⟨⟨⟨by omega, hm.1.1.2⟩, hm.1.2⟩, hm.2⟩

theorem wfFrom_erase {lo : Nat} (m : Memory) (a : Nat) (hm : wfFrom lo m = true) : wfFrom lo (erase m a) = true := by
  induction m generalizing lo with
  | nil => rfl
  | cons cell rest ih =>
    obtain ⟨k, c⟩ := cell
    simp only [wfFrom, Bool.and_eq_true, decide_eq_true_eq] at hm
    obtain ⟨⟨⟨hlo, hlt⟩, hc⟩, hrest⟩ := hm
    by_cases h : k = a
    · simpa [erase, h] using wfFrom_mono (by omega : lo ≤ k + 1) _ (ih hrest)
    · simp [erase, h, wfFrom, hlo, hlt, hc, ih hrest]

theorem wfFrom_insert_erase {lo : Nat} (m : Memory) {a : Nat} {b : Byte} (hb : b ≠ unlisted) (hlo : lo ≤ a)
    (ha : a < Config.memSize) (hm : wfFrom lo m = true) : wfFrom lo (insert (erase m a) a b) = true := by
  induction m generalizing lo with
  | nil => simp [erase, insert, wfFrom, hb, hlo, ha]
  | cons cell rest ih =>
    obtain ⟨k, c⟩ := cell
    simp only [wfFrom, Bool.and_eq_true, decide_eq_true_eq] at hm
    obtain ⟨⟨⟨hk, hlt⟩, hc⟩, hrest⟩ := hm
    by_cases h : k = a
    · simp only [erase, h, if_true]
      exact ih hlo (wfFrom_mono (by omega : lo ≤ k + 1) _ hrest)
    · by_cases h' : a < k
      · simp only [erase, h, insert, h', if_true, if_false, wfFrom, Bool.and_eq_true, decide_eq_true_eq]
        exact ⟨⟨⟨hlo, ha⟩, hb⟩, ⟨⟨⟨by omega, hlt⟩, hc⟩, wfFrom_erase _ _ hrest⟩⟩
      · simp only [erase, h, insert, h', if_false, wfFrom, Bool.and_eq_true, decide_eq_true_eq]
        exact ⟨⟨⟨hk, hlt⟩, hc⟩, ih (by omega) hrest⟩

/-- Writing a byte inside memory keeps the canonical form. -/
theorem wf_writeByte {m : Memory} {a : Nat} (b : Byte) (ha : a < Config.memSize) (hm : m.wf = true) :
    (writeByte m a b).wf = true := by
  unfold writeByte wf
  split
  · exact wfFrom_erase m a hm
  · exact wfFrom_insert_erase m ‹_› (Nat.zero_le a) ha hm

/-- Writing bytes inside memory keeps the canonical form. -/
theorem wf_writeBytes (bs : List Byte) {m : Memory} {a : Nat} (ha : inBounds a bs.length) (hm : m.wf = true) :
    (writeBytes m a bs).wf = true := by
  induction bs generalizing m a with
  | nil => exact hm
  | cons b rest ih =>
    simp only [inBounds, List.length_cons] at ha
    exact ih (by simp only [inBounds]; omega) (wf_writeByte b (by omega) hm)

end Memory

/-! ### The two primitives of 20_memory.md R30 -/

/-- All that `memRead` can answer: the bytes of an access in bounds, or nothing. -/
theorem memRead_eq_some_iff {m : Memory} {addr n : Nat} {bytes : List Byte} :
    memRead m addr n = some bytes ↔
      inBounds addr n ∧ bytes = (List.range n).map fun j => m.readByte (addr + j) := by
  unfold memRead
  split <;> simp_all [eq_comm]

theorem memRead_eq_none_iff {m : Memory} {addr n : Nat} : memRead m addr n = none ↔ ¬ inBounds addr n := by
  unfold memRead
  split <;> simp_all

theorem memRead_of_inBounds {m : Memory} {addr n : Nat} (h : inBounds addr n) :
    memRead m addr n = some ((List.range n).map fun j => m.readByte (addr + j)) := if_pos h

/-- All that `memWrite` can answer: the memory with the bytes written, or nothing. -/
theorem memWrite_eq_some_iff {m m' : Memory} {addr : Nat} {bytes : List Byte} :
    memWrite m addr bytes = some m' ↔ inBounds addr bytes.length ∧ m' = m.writeBytes addr bytes := by
  unfold memWrite
  split <;> simp_all [eq_comm]

theorem memWrite_eq_none_iff {m : Memory} {addr : Nat} {bytes : List Byte} :
    memWrite m addr bytes = none ↔ ¬ inBounds addr bytes.length := by
  unfold memWrite
  split <;> simp_all

theorem memWrite_of_inBounds {m : Memory} {addr : Nat} {bytes : List Byte} (h : inBounds addr bytes.length) :
    memWrite m addr bytes = some (m.writeBytes addr bytes) := if_pos h

/-- A write by `memWrite` keeps the canonical form. -/
theorem memWrite_wf {m m' : Memory} {addr : Nat} {bytes : List Byte} (hm : m.wf = true)
    (h : memWrite m addr bytes = some m') : m'.wf = true := by
  obtain ⟨hb, rfl⟩ := memWrite_eq_some_iff.1 h
  exact Memory.wf_writeBytes bytes hb hm

/-- The fetch (20_memory.md R32) of a word inside memory. -/
theorem fetch_of_inBounds {m : Memory} {pc : Word} (h : inBounds pc.toNat 2) :
    fetch m pc = some (bigEndian (m.readByte pc.toNat) (m.readByte (pc.toNat + 1))) := by
  simp [fetch, memRead_of_inBounds h, List.range_succ]

theorem fetch_eq_none_iff {m : Memory} {pc : Word} : fetch m pc = none ↔ ¬ inBounds pc.toNat 2 := by
  by_cases h : inBounds pc.toNat 2
  · simp [fetch_of_inBounds h, h]
  · simp [fetch, memRead_eq_none_iff.2 h, h]

/-- A word was fetched only from inside memory, big-endian. -/
theorem fetch_eq_some_iff {m : Memory} {pc w : Word} :
    fetch m pc = some w ↔
      inBounds pc.toNat 2 ∧ w = bigEndian (m.readByte pc.toNat) (m.readByte (pc.toNat + 1)) := by
  by_cases h : inBounds pc.toNat 2
  · simp [fetch_of_inBounds h, h, eq_comm]
  · simp [fetch_eq_none_iff.2 h, h]

end Sys2Proof.Machine
end

