-- ==== Sys2Proof/Laws/State.lean ====
section
/-! SUPPORT. One lemma per field of State per update, so that no proof unfolds a record update, and what each shared
operation answers. -/

namespace Sys2Proof.Machine

section Fields
variable (s : State) (x : RegIdx) (b : Byte) (f : Bool)

@[simp] theorem writeReg_I : (writeReg s x b).I = s.I := rfl
@[simp] theorem writeReg_pc : (writeReg s x b).pc = s.pc := rfl
@[simp] theorem writeReg_DT : (writeReg s x b).DT = s.DT := rfl
@[simp] theorem writeReg_ST : (writeReg s x b).ST = s.ST := rfl
@[simp] theorem writeReg_stack : (writeReg s x b).stack = s.stack := rfl
@[simp] theorem writeReg_mem : (writeReg s x b).mem = s.mem := rfl
@[simp] theorem writeReg_disp : (writeReg s x b).disp = s.disp := rfl
@[simp] theorem writeReg_key : (writeReg s x b).key = s.key := rfl
@[simp] theorem writeReg_rng : (writeReg s x b).rng = s.rng := rfl
@[simp] theorem writeReg_status : (writeReg s x b).status = s.status := rfl
@[simp] theorem writeReg_cfg : (writeReg s x b).cfg = s.cfg := rfl
@[simp] theorem writeReg_outcome : (writeReg s x b).outcome = s.outcome := rfl

@[simp] theorem writeFlag_I : (writeFlag s f).I = s.I := rfl
@[simp] theorem writeFlag_pc : (writeFlag s f).pc = s.pc := rfl
@[simp] theorem writeFlag_DT : (writeFlag s f).DT = s.DT := rfl
@[simp] theorem writeFlag_ST : (writeFlag s f).ST = s.ST := rfl
@[simp] theorem writeFlag_stack : (writeFlag s f).stack = s.stack := rfl
@[simp] theorem writeFlag_mem : (writeFlag s f).mem = s.mem := rfl
@[simp] theorem writeFlag_disp : (writeFlag s f).disp = s.disp := rfl
@[simp] theorem writeFlag_key : (writeFlag s f).key = s.key := rfl
@[simp] theorem writeFlag_rng : (writeFlag s f).rng = s.rng := rfl
@[simp] theorem writeFlag_status : (writeFlag s f).status = s.status := rfl
@[simp] theorem writeFlag_cfg : (writeFlag s f).cfg = s.cfg := rfl
@[simp] theorem writeFlag_outcome : (writeFlag s f).outcome = s.outcome := rfl

@[simp] theorem writeResult_I : (writeResult s x b f).I = s.I := rfl
@[simp] theorem writeResult_pc : (writeResult s x b f).pc = s.pc := rfl
@[simp] theorem writeResult_DT : (writeResult s x b f).DT = s.DT := rfl
@[simp] theorem writeResult_ST : (writeResult s x b f).ST = s.ST := rfl
@[simp] theorem writeResult_stack : (writeResult s x b f).stack = s.stack := rfl
@[simp] theorem writeResult_mem : (writeResult s x b f).mem = s.mem := rfl
@[simp] theorem writeResult_disp : (writeResult s x b f).disp = s.disp := rfl
@[simp] theorem writeResult_key : (writeResult s x b f).key = s.key := rfl
@[simp] theorem writeResult_rng : (writeResult s x b f).rng = s.rng := rfl
@[simp] theorem writeResult_status : (writeResult s x b f).status = s.status := rfl
@[simp] theorem writeResult_cfg : (writeResult s x b f).cfg = s.cfg := rfl
@[simp] theorem writeResult_outcome : (writeResult s x b f).outcome = s.outcome := rfl

@[simp] theorem bumpIndex_V : (bumpIndex x s).V = s.V := by unfold bumpIndex; split <;> rfl
@[simp] theorem bumpIndex_pc : (bumpIndex x s).pc = s.pc := by unfold bumpIndex; split <;> rfl
@[simp] theorem bumpIndex_DT : (bumpIndex x s).DT = s.DT := by unfold bumpIndex; split <;> rfl
@[simp] theorem bumpIndex_ST : (bumpIndex x s).ST = s.ST := by unfold bumpIndex; split <;> rfl
@[simp] theorem bumpIndex_stack : (bumpIndex x s).stack = s.stack := by unfold bumpIndex; split <;> rfl
@[simp] theorem bumpIndex_mem : (bumpIndex x s).mem = s.mem := by unfold bumpIndex; split <;> rfl
@[simp] theorem bumpIndex_disp : (bumpIndex x s).disp = s.disp := by unfold bumpIndex; split <;> rfl
@[simp] theorem bumpIndex_key : (bumpIndex x s).key = s.key := by unfold bumpIndex; split <;> rfl
@[simp] theorem bumpIndex_rng : (bumpIndex x s).rng = s.rng := by unfold bumpIndex; split <;> rfl
@[simp] theorem bumpIndex_status : (bumpIndex x s).status = s.status := by unfold bumpIndex; split <;> rfl
@[simp] theorem bumpIndex_cfg : (bumpIndex x s).cfg = s.cfg := by unfold bumpIndex; split <;> rfl
@[simp] theorem bumpIndex_outcome : (bumpIndex x s).outcome = s.outcome := by unfold bumpIndex; split <;> rfl

/-- I after the optional post-increment (42_index_memory.md R98, R99). -/
theorem bumpIndex_I :
    (bumpIndex x s).I = if s.cfg.indexIncrement then s.I + BitVec.ofNat 16 (blockLength x) else s.I := by
  unfold bumpIndex; split <;> rfl

end Fields

/-! ### Reading a register after a write -/

section Registers
variable (s : State) (x : RegIdx) (b : Byte) (f : Bool)

@[simp] theorem readReg_writeReg_same : readReg (writeReg s x b) x = b := by
  simp [readReg, writeReg]

theorem readReg_writeReg_other {y : RegIdx} (h : y ≠ x) : readReg (writeReg s x b) y = readReg s y := by
  have hne : x.toNat ≠ y.toNat := fun hxy => h (BitVec.eq_of_toNat_eq hxy.symm)
  simp [readReg, writeReg, hne]

/-- Writing register `x` and reading register `y`. -/
theorem readReg_writeReg {y : RegIdx} : readReg (writeReg s x b) y = if y = x then b else readReg s y := by
  split
  · next h => subst h; exact readReg_writeReg_same s y b
  · next h => exact readReg_writeReg_other s x b h

@[simp] theorem readReg_writeFlag_VF : readReg (writeFlag s f) VF = flagByte f := readReg_writeReg_same s VF _

theorem readReg_writeFlag_other {y : RegIdx} (h : y ≠ VF) : readReg (writeFlag s f) y = readReg s y :=
  readReg_writeReg_other s VF _ h

/-- The flag wins when the destination is VF (00_scope.md R10). -/
@[simp] theorem readReg_writeResult_VF : readReg (writeResult s x b f) VF = flagByte f :=
  readReg_writeFlag_VF _ f

theorem readReg_writeResult_dest (h : x ≠ VF) : readReg (writeResult s x b f) x = b := by
  rw [writeResult, readReg_writeFlag_other _ _ h, readReg_writeReg_same]

theorem readReg_writeResult_other {y : RegIdx} (hx : y ≠ x) (hf : y ≠ VF) :
    readReg (writeResult s x b f) y = readReg s y := by
  rw [writeResult, readReg_writeFlag_other _ _ hf, readReg_writeReg_other _ _ _ hx]

/-- Registers depend on the register file alone. -/
theorem readReg_congr {t : State} (h : t.V = s.V) : readReg t x = readReg s x := by
  simp only [readReg, h]

/-- The loaded block (42_index_memory.md R99): register `r` holds byte `r - start` if the block reaches it. -/
theorem loadBlock_getElem (bytes : List Byte) (V : Regs) (start r : Nat) (hr : r < 16) :
    (loadBlock V start bytes)[r] = if h : start ≤ r ∧ r < start + bytes.length then bytes[r - start] else V[r] := by
  induction bytes generalizing V start with
  | nil => simp [loadBlock]
  | cons b rest ih =>
    rw [loadBlock, ih, Vector.getElem_setIfInBounds]
    by_cases h1 : start + 1 ≤ r ∧ r < start + 1 + rest.length
    · rw [dif_pos h1, dif_pos (by simp; omega)]
      simp [List.getElem_cons, show r - start ≠ 0 by omega, show r - start - 1 = r - (start + 1) by omega]
    · rw [dif_neg h1]
      by_cases h2 : start = r
      · subst h2; simp
      · rw [if_neg h2, dif_neg (by simp; omega)]

/-- The stored block (42_index_memory.md R98) has x + 1 bytes. -/
@[simp] theorem regBlock_length : (regBlock s x).length = blockLength x := by
  have := x.isLt
  simp [regBlock, blockLength]; omega

theorem regBlock_getElem {j : Nat} (hj : j < (regBlock s x).length) :
    (regBlock s x)[j] = s.V[j]'(by have := x.isLt; simp [blockLength] at hj; omega) := by
  simp [regBlock]

end Registers

/-! ### What the shared operations answer -/

/-- The state `retire` answers: the next pc and the outcome, everything else as the instruction left it. -/
def retired (s : State) (e : Effect) : State := { s with pc := nextPc s.pc e, outcome := some e.outcome }

theorem retire_eq (s : State) (e : Effect) : retire s e = .next (retired s e) := rfl

section Retired
variable (s : State) (e : Effect) (x : RegIdx)

@[simp] theorem retired_V : (retired s e).V = s.V := rfl
@[simp] theorem retired_I : (retired s e).I = s.I := rfl
@[simp] theorem retired_DT : (retired s e).DT = s.DT := rfl
@[simp] theorem retired_ST : (retired s e).ST = s.ST := rfl
@[simp] theorem retired_stack : (retired s e).stack = s.stack := rfl
@[simp] theorem retired_mem : (retired s e).mem = s.mem := rfl
@[simp] theorem retired_disp : (retired s e).disp = s.disp := rfl
@[simp] theorem retired_key : (retired s e).key = s.key := rfl
@[simp] theorem retired_rng : (retired s e).rng = s.rng := rfl
@[simp] theorem retired_status : (retired s e).status = s.status := rfl
@[simp] theorem retired_cfg : (retired s e).cfg = s.cfg := rfl
@[simp] theorem retired_pc : (retired s e).pc = nextPc s.pc e := rfl
@[simp] theorem retired_outcome : (retired s e).outcome = some e.outcome := rfl
@[simp] theorem readReg_retired : readReg (retired s e) x = readReg s x := rfl

end Retired

/-- The next pc as a number, where the sum fits (40_control.md R70, R71). -/
theorem nextPc_advance_toNat {p : Word} (h : p.toNat + 2 < 65536) : (nextPc p .advance).toNat = p.toNat + 2 := by
  simp only [nextPc, BitVec.toNat_add, BitVec.toNat_ofNat]; omega

theorem nextPc_advanceSkip_toNat {p : Word} (h : p.toNat + 4 < 65536) :
    (nextPc p .advanceSkip).toNat = p.toNat + 4 := by
  simp only [nextPc, BitVec.toNat_add, BitVec.toNat_ofNat]; omega

/-- All that raising a fault does: the record and the outcome (60_exceptions.md R113). -/
theorem raiseFault_eq (code : FaultCode) (i : Instr) (s : State) :
    raiseFault code i s =
      .next { s with status := .faulted code s.pc (some (encode i)), outcome := some .faulted } := rfl

/-- Push (20_memory.md R36). -/
theorem push_eq_some_iff {depth : Nat} {stack stack' : List Word} {a : Word} :
    push depth stack a = some stack' ↔ stack.length ≠ depth ∧ stack' = stack ++ [a] := by
  unfold push; split <;> simp_all [eq_comm]

theorem push_eq_none_iff {depth : Nat} {stack : List Word} {a : Word} :
    push depth stack a = none ↔ stack.length = depth := by
  unfold push; split <;> simp_all

/-- Pop (20_memory.md R37). -/
theorem pop_append (stack : List Word) (a : Word) : pop (stack ++ [a]) = some (a, stack) := by
  simp [pop]

theorem pop_eq_none_iff {stack : List Word} : pop stack = none ↔ stack = [] := by
  rcases List.eq_nil_or_concat stack with rfl | ⟨l, b, rfl⟩
  · simp [pop]
  · simp [List.concat_eq_append, pop_append]

theorem pop_eq_some_iff {stack rest : List Word} {a : Word} :
    pop stack = some (a, rest) ↔ stack = rest ++ [a] := by
  constructor
  · intro h
    rcases List.eq_nil_or_concat stack with rfl | ⟨l, b, rfl⟩
    · simp [pop] at h
    · simp only [List.concat_eq_append, pop_append, Option.some.injEq, Prod.mk.injEq] at h
      simp [h.1, h.2]
  · rintro rfl; exact pop_append rest a

/-- A key value is pressed iff it is the latch's key (20_memory.md R45). -/
theorem keyIsPressed_iff {key : Option Key} {v : Byte} :
    keyIsPressed key v = true ↔ ∃ k, key = some k ∧ k.toNat = v.toNat := by
  cases key <;> simp [keyIsPressed]

/-- A flag value is 1 or 0 (41_alu.md R81). -/
theorem flagByte_eq_one_iff {f : Bool} : flagByte f = 1#8 ↔ f = true := by cases f <;> decide

theorem flagByte_zero_or_one (f : Bool) : flagByte f = 0#8 ∨ flagByte f = 1#8 := by cases f <;> simp [flagByte]

end Sys2Proof.Machine
end

