-- ==== Sys2Proof/Laws/Step.lean ====
section
/-! SUPPORT. What a step can do, said once: the five cases of a call (40_control.md R68, R69), and what the meanings with
more than one ending answer in each. -/

namespace Sys2Proof.Machine

/-! ### The step -/

/-- A call of a faulted engine's step changes nothing (40_control.md R68). -/
theorem step_of_faulted {s : State} (h : s.status ≠ .running) : step s = .next s := by
  unfold step
  split
  · rfl
  · next heq => exact absurd heq h

theorem step_of_running {s : State} (h : s.status = .running) :
    step s =
      match fetch s.mem s.pc with
      | none => fetchFault s
      | some w =>
        match decode w with
        | .error _ => skipDecodeError w s
        | .ok i => exec i s := by
  cases s
  cases h
  rfl

/-- A step of a running engine whose fetched word decodes is that instruction's meaning. -/
theorem step_of_decode {s : State} {w : Word} {i : Instr} (h : s.status = .running) (hw : fetch s.mem s.pc = some w)
    (hi : decode w = .ok i) : step s = exec i s := by
  simp only [step_of_running h, hw, hi]

/-- All that a call of the step can be. -/
theorem step_cases (s : State) :
    (s.status ≠ .running ∧ step s = .next s) ∨
    (s.status = .running ∧ fetch s.mem s.pc = none ∧ step s = fetchFault s) ∨
    (∃ w e, s.status = .running ∧ fetch s.mem s.pc = some w ∧ decode w = .error e ∧ step s = skipDecodeError w s) ∨
    (∃ w i, s.status = .running ∧ fetch s.mem s.pc = some w ∧ decode w = .ok i ∧ step s = exec i s) := by
  by_cases h : s.status = .running
  · rcases hw : fetch s.mem s.pc with _ | w
    · exact .inr (.inl ⟨h, rfl, by simp only [step_of_running h, hw]⟩)
    · rcases hi : decode w with e | i
      · exact .inr (.inr (.inl ⟨w, e, h, rfl, hi, by simp only [step_of_running h, hw, hi]⟩))
      · exact .inr (.inr (.inr ⟨w, i, h, rfl, hi, step_of_decode h hw hi⟩))
  · exact .inl ⟨h, step_of_faulted h⟩

/-! ### The meanings with more than one ending -/

section Meanings
variable (s : State) (x y : RegIdx) (n : Nibble) (nnn : Addr12)

theorem execRet_of_empty (h : s.stack = []) : execRet s = raiseFault .callStackUnderflow .ret s := by
  simp [execRet, pop_eq_none_iff.2 h]

theorem execRet_of_append {rest : List Word} {a : Word} (h : s.stack = rest ++ [a]) :
    execRet s = .next (retired { s with stack := rest } (.jump a)) := by
  simp only [execRet, pop_eq_some_iff.2 h, retire_eq]

theorem execCall_of_full (h : s.stack.length = s.cfg.stackDepth) :
    execCall nnn s = raiseFault .callStackOverflow (.call nnn) s := by
  simp [execCall, push_eq_none_iff.2 h]

theorem execCall_of_room (h : s.stack.length ≠ s.cfg.stackDepth) :
    execCall nnn s = .next (retired { s with stack := s.stack ++ [s.pc + 2#16] } (.jump (zextAddr nnn))) := by
  simp only [execCall, push_eq_some_iff.2 ⟨h, rfl⟩, retire_eq]

@[simp] theorem bcdDigits_length (v : Byte) : (bcdDigits v).length = 3 := rfl

theorem execStoreBcd_of_inBounds (h : inBounds s.I.toNat 3) :
    execStoreBcd x s =
      .next (retired { s with mem := s.mem.writeBytes s.I.toNat (bcdDigits (readReg s x)) } .advance) := by
  have hw := memWrite_of_inBounds (m := s.mem) (bytes := bcdDigits (readReg s x)) h
  simp only [execStoreBcd, hw, retire_eq]

theorem execStoreBcd_of_outOfBounds (h : ¬ inBounds s.I.toNat 3) :
    execStoreBcd x s = raiseFault .outOfBoundsAccess (.storeBcd x) s := by
  have hw := memWrite_eq_none_iff (m := s.mem) (bytes := bcdDigits (readReg s x)).2 h
  simp only [execStoreBcd, hw]

theorem execStoreRegs_of_inBounds (h : inBounds s.I.toNat (blockLength x)) :
    execStoreRegs x s =
      .next (retired (bumpIndex x { s with mem := s.mem.writeBytes s.I.toNat (regBlock s x) }) .advance) := by
  have hw := memWrite_of_inBounds (m := s.mem) (bytes := regBlock s x) (by simpa using h)
  simp only [execStoreRegs, hw, retire_eq]

theorem execStoreRegs_of_outOfBounds (h : ¬ inBounds s.I.toNat (blockLength x)) :
    execStoreRegs x s = raiseFault .outOfBoundsAccess (.storeRegs x) s := by
  have hw := (memWrite_eq_none_iff (m := s.mem) (bytes := regBlock s x)).2 (by simpa using h)
  simp only [execStoreRegs, hw]

theorem execLoadRegs_of_inBounds (h : inBounds s.I.toNat (blockLength x)) :
    execLoadRegs x s =
      .next (retired (bumpIndex x { s with
        V := loadBlock s.V 0 ((List.range (blockLength x)).map fun j => s.mem.readByte (s.I.toNat + j)) })
        .advance) := by
  simp only [execLoadRegs, memRead_of_inBounds h, retire_eq]

theorem execLoadRegs_of_outOfBounds (h : ¬ inBounds s.I.toNat (blockLength x)) :
    execLoadRegs x s = raiseFault .outOfBoundsAccess (.loadRegs x) s := by
  simp only [execLoadRegs, memRead_eq_none_iff.2 h]

/-- The sprite bytes of DRW: n bytes at I (43_display_input_timers.md R102). -/
def spriteAt (s : State) (n : Nibble) : List Byte :=
  (List.range n.toNat).map fun j => s.mem.readByte (s.I.toNat + j)

theorem spriteAt_length : (spriteAt s n).length = n.toNat := by simp [spriteAt]

theorem execDraw_of_inBounds (h : inBounds s.I.toNat n.toNat) :
    execDraw x y n s =
      .next (retired (writeFlag
        { s with disp := (dispDraw s.cfg.drawEdge s.disp (drawOrigin s x y).1 (drawOrigin s x y).2 (spriteAt s n)).1 }
        (dispDraw s.cfg.drawEdge s.disp (drawOrigin s x y).1 (drawOrigin s x y).2 (spriteAt s n)).2) .advance) := by
  simp only [execDraw, memRead_of_inBounds h]
  rfl

theorem execDraw_of_outOfBounds (h : ¬ inBounds s.I.toNat n.toNat) :
    execDraw x y n s = raiseFault .outOfBoundsAccess (.draw x y n) s := by
  simp only [execDraw, memRead_eq_none_iff.2 h]

theorem execWaitKey_of_none (h : s.key = none) : execWaitKey x s = .next (retired s .suspend) := by
  simp only [execWaitKey, keyGetPressed, h, retire_eq]

theorem execWaitKey_of_some {k : Key} (h : s.key = some k) :
    execWaitKey x s = .next (retired (writeReg s x (k.setWidth 8)) .advance) := by
  simp only [execWaitKey, keyGetPressed, h, retire_eq]

end Meanings

/-- Re-seeding (10_state.md R24) leaves the PRNG as a reset with the same seed does. -/
theorem reseed_resetWith (cfg : Config) (seed seed' : Nat) :
    (State.resetWith cfg seed).reseed seed' = State.resetWith cfg seed' := rfl

end Sys2Proof.Machine
end

