-- ==== Sys2Proof/Laws/Exec.lean ====
section
/-! SUPPORT. What an instruction can do, said once for all of them: the three endings of `exec` against the conditions
of Safety.lean. -/

namespace Sys2Proof.Machine

theorem not_inBounds_of_gt {s : State} {n : Nat} (h : s.I.toNat + n > 4096) : ¬ inBounds s.I.toNat n := by
    simp [inBounds, Config.memSize]; omega
theorem inBounds_of_not_gt {s : State} {n : Nat} (h : ¬ s.I.toNat + n > 4096) : inBounds s.I.toNat n := by
    simp [inBounds, Config.memSize]; omega

theorem skipIf_outcome (c : Bool) : (skipIf c).outcome = .executed := by cases c <;> rfl

/-- All that an instruction can do: raise its one fault, be skipped as unsupported, or retire a state that keeps status,
pc, latch and parameters with an effect that suspends only in a key wait with no key (60_exceptions.md R109, R111, R113,
R114). -/
theorem exec_cases (i : Instr) (s : State) :
    (∃ code, raises i s = some code ∧ i.unsupported = false ∧ exec i s = raiseFault code i s) ∨
    (raises i s = none ∧ i.unsupported = true ∧ exec i s = skipUnsupported i s) ∨
    (raises i s = none ∧ i.unsupported = false ∧
      ∃ s' e, exec i s = .next (retired s' e) ∧ s'.status = s.status ∧ s'.pc = s.pc ∧ s'.key = s.key ∧
        s'.cfg = s.cfg ∧
        e.outcome = if (∃ x, i = .waitKey x) ∧ s.key = none then .suspended else .executed) := by
  cases i
  case ret =>
    by_cases h : s.stack = []
    · exact .inl ⟨_, by simp [raises, h], rfl, execRet_of_empty s h⟩
    · obtain ⟨l, b, hb⟩ := (List.eq_nil_or_concat s.stack).resolve_left h
      rw [List.concat_eq_append] at hb
      exact .inr (.inr ⟨by simp [raises, h], rfl, _, _, execRet_of_append s hb,
          rfl, rfl, rfl, rfl, by simp [Effect.outcome]⟩)
  case call nnn =>
    by_cases h : s.stack.length = s.cfg.stackDepth
    · exact .inl ⟨_, by simp [raises, h], rfl, execCall_of_full s nnn h⟩
    · exact .inr (.inr ⟨by simp [raises, h], rfl, _, _, execCall_of_room s nnn h,
        rfl, rfl, rfl, rfl, by simp [Effect.outcome]⟩)
  case draw x y n =>
    by_cases h : s.I.toNat + n.toNat > 4096
    · exact .inl ⟨_, by simp only [raises, if_pos h], rfl, execDraw_of_outOfBounds s x y n (not_inBounds_of_gt h)⟩
    · exact .inr (.inr ⟨by simp only [raises, if_neg h], rfl, _, _, execDraw_of_inBounds s x y n (inBounds_of_not_gt h),
        rfl, rfl, rfl, rfl, by simp [Effect.outcome]⟩)
  case storeBcd x =>
    by_cases h : s.I.toNat + 3 > 4096
    · exact .inl ⟨_, by simp only [raises, if_pos h], rfl, execStoreBcd_of_outOfBounds s x (not_inBounds_of_gt h)⟩
    · exact .inr (.inr ⟨by simp only [raises, if_neg h], rfl, _, _, execStoreBcd_of_inBounds s x (inBounds_of_not_gt h),
        rfl, rfl, rfl, rfl, by simp [Effect.outcome]⟩)
  case storeRegs x =>
    by_cases h : s.I.toNat + x.toNat + 1 > 4096
    · exact .inl ⟨_, by simp only [raises, if_pos h], rfl, execStoreRegs_of_outOfBounds s x (not_inBounds_of_gt h)⟩
    · exact .inr (.inr ⟨by simp only [raises, if_neg h], rfl, _, _, execStoreRegs_of_inBounds s x (inBounds_of_not_gt h),
        by simp, by simp, by simp, by simp, by simp [Effect.outcome]⟩)
  case loadRegs x =>
    by_cases h : s.I.toNat + x.toNat + 1 > 4096
    · exact .inl ⟨_, by simp only [raises, if_pos h], rfl, execLoadRegs_of_outOfBounds s x (not_inBounds_of_gt h)⟩
    · exact .inr (.inr ⟨by simp only [raises, if_neg h], rfl, _, _, execLoadRegs_of_inBounds s x (inBounds_of_not_gt h),
        by simp, by simp, by simp, by simp, by simp [Effect.outcome]⟩)
  case waitKey x =>
    rcases h : s.key with _ | k
    · exact .inr (.inr ⟨rfl, rfl, _, _, execWaitKey_of_none s x h, rfl, rfl, h, rfl, by simp [Effect.outcome]⟩)
    · exact .inr (.inr ⟨rfl, rfl, _, _, execWaitKey_of_some s x h, rfl, rfl, h, rfl, by simp [Effect.outcome]⟩)
  all_goals first
    | exact .inr (.inl ⟨rfl, rfl, rfl⟩)
    | exact .inr (.inr ⟨rfl, rfl, _, _, rfl, rfl, rfl, rfl, rfl, (skipIf_outcome _).trans (if_neg (by simp)).symm⟩)
    | exact .inr (.inr ⟨rfl, rfl, _, _, rfl, rfl, rfl, rfl, rfl, by simp [Effect.outcome]⟩)

end Sys2Proof.Machine
end

