-- ==== Sys2Proof/Laws/Frames.lean ====
section
/-! SUPPORT. The frame predicates of Safety.lean on the states the shared operations answer, and the numbers behind the
operand helpers. -/

namespace Sys2Proof.Machine

section Frames
variable (s s' : State) (e : Effect) (x : RegIdx) (b : Byte) (f : Bool)

/-- An instruction that advances: pc + 2. -/
theorem pcAfter_advance (h : s'.pc = s.pc) : PcAfter 2 s (retired s' .advance) := by
  intro hk
  rw [retired_pc, h, nextPc_advance_toNat hk]

/-- A skip whose condition `b` says `c`: pc + 4 or pc + 2. -/
theorem pcAfter_skipIf {c : Prop} [Decidable c] (hc : f = true ↔ c) :
    PcAfter (if c then 4 else 2) s (retired s (skipIf f)) := by
  intro hk
  cases f with
  | true =>
    have h : c := hc.1 rfl
    simp only [h, if_true] at hk ⊢
    exact nextPc_advanceSkip_toNat hk
  | false =>
    have h : ¬ c := fun h => by simpa using hc.2 h
    simp only [h, if_false] at hk ⊢
    exact nextPc_advance_toNat hk

/-- An instruction that leaves the register file alone leaves every register alone. -/
theorem regsUnchanged_retired (h : s'.V = s.V) : RegsUnchanged [] s (retired s' e) :=
  fun r _ => readReg_congr s r (t := retired s' e) h

/-- One register written. -/
theorem regsUnchanged_writeReg (h : s'.V = s.V) : RegsUnchanged [x] s (retired (writeReg s' x b) e) := by
  intro r hr
  rw [readReg_retired, readReg_writeReg_other _ _ _ (by simpa using hr)]
  exact readReg_congr s r h

/-- A result and a flag written. -/
theorem regsUnchanged_writeResult : RegsUnchanged [x, VF] s (retired (writeResult s x b f) e) := by
  intro r hr
  simp only [List.mem_cons, List.not_mem_nil, or_false, not_or] at hr
  rw [readReg_retired, readReg_writeResult_other _ _ _ _ hr.1 hr.2]

/-- Entering a fault leaves every register alone. -/
theorem regsUnchanged_faulted (code : FaultCode) (w : Option Word) (o : Option StepOutcome) :
    RegsUnchanged [] s { s with status := .faulted code s.pc w, outcome := o } := fun _ _ => rfl

/-- Entering a fault changes the status and nothing else. -/
theorem unchanged_faulted (code : FaultCode) (w : Option Word) (o : Option StepOutcome) :
    Unchanged [.status] s { s with status := .faulted code s.pc w, outcome := o } := by
  constructor <;> simp

end Frames

/-! ### Operand helpers as numbers -/

theorem flagByte_toNat (f : Bool) : (flagByte f).toNat = if f then 1 else 0 := by cases f <;> rfl

theorem zextAddr_toNat (nnn : Addr12) : (zextAddr nnn).toNat = nnn.toNat := by
  have := nnn.isLt
  simp only [zextAddr, BitVec.toNat_setWidth]
  omega

theorem zextByte_toNat (b : Byte) : (zextByte b).toNat = b.toNat := by
  have := b.isLt
  simp only [zextByte, BitVec.toNat_setWidth]
  omega

/-- The shifted register (41_alu.md R90, R92). -/
theorem shiftOperand_eq (s : State) (x y : RegIdx) :
    shiftOperand s x y = readReg s (if s.cfg.shiftSource = .vx then x else y) := by
  unfold shiftOperand
  split <;> simp_all

/-- The row of a sprite (43_display_input_timers.md R102). -/
theorem drawOrigin_row (s : State) (x y : RegIdx) :
    (drawOrigin s x y).1 = (readReg s (if s.cfg.drawAxes = .vxRow then x else y)).toNat := by
  unfold drawOrigin
  split <;> simp_all

/-- The column of a sprite (R102). -/
theorem drawOrigin_col (s : State) (x y : RegIdx) :
    (drawOrigin s x y).2 = (readReg s (if s.cfg.drawAxes = .vxRow then y else x)).toNat := by
  unfold drawOrigin
  split <;> simp_all

/-- A pixel is covered by a sprite iff it is one of the sprite's pixels (20_memory.md R41, R42). -/
theorem covers_iff_mem {edge : DrawEdge} {row col : Nat} {sprite : List Byte} {r : Fin 32} {c : Fin 64} :
    covers edge row col sprite r c ↔ (r, c) ∈ spritePixels edge row col sprite := by
  rw [mem_spritePixels]
  cases edge <;> simp only [covers, fallsOn, place_eq_some_iff, spriteBit]

/-- A byte loaded by LD Vx, [I] (42_index_memory.md R99), by register. -/
theorem loadBlock_readReg (s : State) (x r : RegIdx) (f : Nat → Byte) :
    (loadBlock s.V 0 ((List.range (blockLength x)).map f))[r.toNat]'r.isLt =
      if r.toNat ≤ x.toNat then f r.toNat else readReg s r := by
  rw [loadBlock_getElem _ _ _ _ r.isLt]
  by_cases h : r.toNat ≤ x.toNat
  · rw [dif_pos (by simp [blockLength]; omega), if_pos h]
    simp
  · rw [dif_neg (by simp [blockLength]; omega), if_neg h]
    rfl

end Sys2Proof.Machine
end

