-- ==== Sys2Proof/Laws/PerInstr.lean ====
section
/-! SUPPORT. A statement about every instruction as syntax, one lemma per constructor: the word of a well-formed
instruction selects the instruction's row of the opcode table (30_encoding.md R57, R66). -/

namespace Sys2Proof.Laws.EncodingMatchesRow

open Sys2Proof

/-- The encoding of `i` selects the row of `i`. -/
def Statement (i : Instr) : Prop := i.wellFormed = true → rowMatches (rowOf i) (encode i) = true

theorem formatA_and (op : Nibble) (nnn : Addr12) : formatA op nnn &&& 0xF000#16 = formatA op 0 := by
  have h : (0xF000#16 : Word) = (0xF#4 ++ 0x000#12 : Word) := by decide
  have h1 : op &&& 0xF#4 = op := BitVec.and_allOnes
  have h2 : nnn &&& 0x000#12 = 0 := BitVec.and_zero
  rw [formatA, h, BitVec.and_append, h1, h2, formatA]

theorem formatXK_and (op : Nibble) (x : RegIdx) (kk : Byte) : formatXK op x kk &&& 0xF000#16 = formatXK op 0 0 := by
  have h : (0xF000#16 : Word) = (0xF#4 ++ 0x0#4 ++ 0x00#8 : Word) := by decide
  have h1 : op &&& 0xF#4 = op := BitVec.and_allOnes
  have h2 : x &&& 0x0#4 = 0 := BitVec.and_zero
  have h3 : kk &&& 0x00#8 = 0 := BitVec.and_zero
  rw [formatXK, h, BitVec.and_append, BitVec.and_append, h1, h2, h3, formatXK]

theorem formatX_and (op : Nibble) (x : RegIdx) (kk : Byte) : formatXK op x kk &&& 0xF0FF#16 = formatXK op 0 kk := by
  have h : (0xF0FF#16 : Word) = (0xF#4 ++ 0x0#4 ++ 0xFF#8 : Word) := by decide
  have h1 : op &&& 0xF#4 = op := BitVec.and_allOnes
  have h2 : x &&& 0x0#4 = 0 := BitVec.and_zero
  have h3 : kk &&& 0xFF#8 = kk := BitVec.and_allOnes
  rw [formatXK, h, BitVec.and_append, BitVec.and_append, h1, h2, h3, formatXK]

theorem formatXYN_and (op : Nibble) (x y : RegIdx) (n : Nibble) :
    formatXYN op x y n &&& 0xF000#16 = formatXYN op 0 0 0 := by
  have h : (0xF000#16 : Word) = (0xF#4 ++ 0x0#4 ++ 0x0#4 ++ 0x0#4 : Word) := by decide
  have h1 : op &&& 0xF#4 = op := BitVec.and_allOnes
  have h2 : x &&& 0x0#4 = 0 := BitVec.and_zero
  have h3 : y &&& 0x0#4 = 0 := BitVec.and_zero
  have h4 : n &&& 0x0#4 = 0 := BitVec.and_zero
  rw [formatXYN, h, BitVec.and_append, BitVec.and_append, BitVec.and_append, h1, h2, h3, h4, formatXYN]

theorem formatXY_and (op : Nibble) (x y : RegIdx) (n : Nibble) :
    formatXYN op x y n &&& 0xF00F#16 = formatXYN op 0 0 n := by
  have h : (0xF00F#16 : Word) = (0xF#4 ++ 0x0#4 ++ 0x0#4 ++ 0xF#4 : Word) := by decide
  have h1 : op &&& 0xF#4 = op := BitVec.and_allOnes
  have h2 : x &&& 0x0#4 = 0 := BitVec.and_zero
  have h3 : y &&& 0x0#4 = 0 := BitVec.and_zero
  have h4 : n &&& 0xF#4 = n := BitVec.and_allOnes
  rw [formatXYN, h, BitVec.and_append, BitVec.and_append, BitVec.and_append, h1, h2, h3, h4, formatXYN]

theorem formatN_and (op : Nibble) (x y : RegIdx) (n : Nibble) :
    formatXYN op x y n &&& 0xFFF0#16 = formatXYN op x y 0 := by
  have h : (0xFFF0#16 : Word) = (0xF#4 ++ 0xF#4 ++ 0xF#4 ++ 0x0#4 : Word) := by decide
  have h1 : op &&& 0xF#4 = op := BitVec.and_allOnes
  have h2 : x &&& 0xF#4 = x := BitVec.and_allOnes
  have h3 : y &&& 0xF#4 = y := BitVec.and_allOnes
  have h4 : n &&& 0x0#4 = 0 := BitVec.and_zero
  rw [formatXYN, h, BitVec.and_append, BitVec.and_append, BitVec.and_append, h1, h2, h3, h4, formatXYN]

/-- A row without the length condition is selected by its mask alone. -/
theorem rowMatches_of_mask {r : OpcodeRow} {w : Word} (h : w &&& r.mask = r.pattern) (hn : r.lengthNonzero = false) :
    rowMatches r w = true := by simp [rowMatches, h, hn]

theorem cls : Statement .cls := fun _ => by decide

theorem ret : Statement .ret := fun _ => by decide

theorem jump (nnn : Addr12) : Statement (.jump nnn) :=
  fun _ => rowMatches_of_mask ((formatA_and ..).trans rfl) rfl

theorem call (nnn : Addr12) : Statement (.call nnn) :=
  fun _ => rowMatches_of_mask ((formatA_and ..).trans rfl) rfl

theorem skipEqImm (x : RegIdx) (kk : Byte) : Statement (.skipEqImm x kk) :=
  fun _ => rowMatches_of_mask ((formatXK_and ..).trans rfl) rfl

theorem skipNeImm (x : RegIdx) (kk : Byte) : Statement (.skipNeImm x kk) :=
  fun _ => rowMatches_of_mask ((formatXK_and ..).trans rfl) rfl

theorem skipEqReg (x : RegIdx) (y : RegIdx) : Statement (.skipEqReg x y) :=
  fun _ => rowMatches_of_mask ((formatXYN_and ..).trans rfl) rfl

theorem loadImm (x : RegIdx) (kk : Byte) : Statement (.loadImm x kk) :=
  fun _ => rowMatches_of_mask ((formatXK_and ..).trans rfl) rfl

theorem addImm (x : RegIdx) (kk : Byte) : Statement (.addImm x kk) :=
  fun _ => rowMatches_of_mask ((formatXK_and ..).trans rfl) rfl

theorem loadReg (x : RegIdx) (y : RegIdx) : Statement (.loadReg x y) :=
  fun _ => rowMatches_of_mask ((formatXY_and ..).trans rfl) rfl

theorem or (x : RegIdx) (y : RegIdx) : Statement (.or x y) :=
  fun _ => rowMatches_of_mask ((formatXY_and ..).trans rfl) rfl

theorem and (x : RegIdx) (y : RegIdx) : Statement (.and x y) :=
  fun _ => rowMatches_of_mask ((formatXY_and ..).trans rfl) rfl

theorem xor (x : RegIdx) (y : RegIdx) : Statement (.xor x y) :=
  fun _ => rowMatches_of_mask ((formatXY_and ..).trans rfl) rfl

theorem addReg (x : RegIdx) (y : RegIdx) : Statement (.addReg x y) :=
  fun _ => rowMatches_of_mask ((formatXY_and ..).trans rfl) rfl

theorem sub (x : RegIdx) (y : RegIdx) : Statement (.sub x y) :=
  fun _ => rowMatches_of_mask ((formatXY_and ..).trans rfl) rfl

theorem shiftRight (x : RegIdx) (y : RegIdx) : Statement (.shiftRight x y) :=
  fun _ => rowMatches_of_mask ((formatXY_and ..).trans rfl) rfl

theorem subN (x : RegIdx) (y : RegIdx) : Statement (.subN x y) :=
  fun _ => rowMatches_of_mask ((formatXY_and ..).trans rfl) rfl

theorem shiftLeft (x : RegIdx) (y : RegIdx) : Statement (.shiftLeft x y) :=
  fun _ => rowMatches_of_mask ((formatXY_and ..).trans rfl) rfl

theorem skipNeReg (x : RegIdx) (y : RegIdx) : Statement (.skipNeReg x y) :=
  fun _ => rowMatches_of_mask ((formatXYN_and ..).trans rfl) rfl

theorem loadIndex (nnn : Addr12) : Statement (.loadIndex nnn) :=
  fun _ => rowMatches_of_mask ((formatA_and ..).trans rfl) rfl

theorem jumpOffset (nnn : Addr12) : Statement (.jumpOffset nnn) :=
  fun _ => rowMatches_of_mask ((formatA_and ..).trans rfl) rfl

theorem random (x : RegIdx) (kk : Byte) : Statement (.random x kk) :=
  fun _ => rowMatches_of_mask ((formatXK_and ..).trans rfl) rfl

theorem draw (x : RegIdx) (y : RegIdx) (n : Nibble) : Statement (.draw x y n) := by
  intro h
  have hn : n ≠ 0#4 := by simpa [Instr.wellFormed] using h
  have hm : formatXYN 0xD#4 x y n &&& 0xF000#16 = 0xD000#16 := (formatXYN_and ..).trans (by decide)
  simp [rowMatches, rowOf, encode, hm, hn]

theorem skipKey (x : RegIdx) : Statement (.skipKey x) :=
  fun _ => rowMatches_of_mask ((formatX_and ..).trans rfl) rfl

theorem skipNotKey (x : RegIdx) : Statement (.skipNotKey x) :=
  fun _ => rowMatches_of_mask ((formatX_and ..).trans rfl) rfl

theorem getDelay (x : RegIdx) : Statement (.getDelay x) :=
  fun _ => rowMatches_of_mask ((formatX_and ..).trans rfl) rfl

theorem waitKey (x : RegIdx) : Statement (.waitKey x) :=
  fun _ => rowMatches_of_mask ((formatX_and ..).trans rfl) rfl

theorem setDelay (x : RegIdx) : Statement (.setDelay x) :=
  fun _ => rowMatches_of_mask ((formatX_and ..).trans rfl) rfl

theorem setSound (x : RegIdx) : Statement (.setSound x) :=
  fun _ => rowMatches_of_mask ((formatX_and ..).trans rfl) rfl

theorem addIndex (x : RegIdx) : Statement (.addIndex x) :=
  fun _ => rowMatches_of_mask ((formatX_and ..).trans rfl) rfl

theorem storeBcd (x : RegIdx) : Statement (.storeBcd x) :=
  fun _ => rowMatches_of_mask ((formatX_and ..).trans rfl) rfl

theorem storeRegs (x : RegIdx) : Statement (.storeRegs x) :=
  fun _ => rowMatches_of_mask ((formatX_and ..).trans rfl) rfl

theorem loadRegs (x : RegIdx) : Statement (.loadRegs x) :=
  fun _ => rowMatches_of_mask ((formatX_and ..).trans rfl) rfl

theorem unsupScrollDown (n : Nibble) : Statement (.unsupScrollDown n) :=
  fun _ => rowMatches_of_mask ((formatN_and ..).trans rfl) rfl

theorem unsupScrollRight : Statement .unsupScrollRight := fun _ => by decide

theorem unsupScrollLeft : Statement .unsupScrollLeft := fun _ => by decide

theorem unsupExit : Statement .unsupExit := fun _ => by decide

theorem unsupLow : Statement .unsupLow := fun _ => by decide

theorem unsupHigh : Statement .unsupHigh := fun _ => by decide

theorem unsupDrawLarge (x : RegIdx) (y : RegIdx) : Statement (.unsupDrawLarge x y) :=
  fun _ => rowMatches_of_mask ((formatXY_and ..).trans rfl) rfl

theorem unsupLargeDigit (x : RegIdx) : Statement (.unsupLargeDigit x) :=
  fun _ => rowMatches_of_mask ((formatX_and ..).trans rfl) rfl

theorem unsupSaveFlags (x : RegIdx) : Statement (.unsupSaveFlags x) :=
  fun _ => rowMatches_of_mask ((formatX_and ..).trans rfl) rfl

theorem unsupLoadFlags (x : RegIdx) : Statement (.unsupLoadFlags x) :=
  fun _ => rowMatches_of_mask ((formatX_and ..).trans rfl) rfl

end Sys2Proof.Laws.EncodingMatchesRow
end

