-- ==== Sys2Proof/Tests/Slice0.lean ====
section
/-! SUPPORT. The model's own tests: the well-formedness smoke test; every constructor's decoding by a word written out
from 30_encoding.md section 2; one step on the vectors of 95_test_vectors.md (each test names its vector, and its
expected values are the vector's); and, for each obligation with hypotheses, a state and operands that meet them. -/

open Sys2Proof Sys2Proof.Machine

namespace Sys2Proof.Tests

/-! ### Helpers -/

/-- The reset state under `cfg`, with the word `w` at pc. -/
def startWith (cfg : Config) (w : Nat) : State := (State.resetWith cfg 0).withFetchWord 16 w

/-- The reset state with the default parameters and the word `w` at pc. -/
def start (w : Nat) : State := startWith Config.default w

/-- Registers set one after the other. -/
def regs (s : State) (vs : List (RegIdx × Byte)) : State := vs.foldl (fun s v => writeReg s v.1 v.2) s

/-- Bytes placed in memory. -/
def bytes (s : State) (a : Nat) (bs : List Byte) : State := { s with mem := s.mem.writeBytes a bs }

/-- A display byte set. -/
def dispByte (s : State) (k : Fin 256) (b : Byte) : State := { s with disp := s.disp.set k b }

/-- A running engine at pc `p` with the word `w` there. -/
def startAt (p : Word) (w : Nat) : State := { State.reset with pc := p }.withFetchWord 16 w

/-- A state under the default parameters but for one. -/
def shiftVy : Config := { Config.default with shiftSource := .vy }
def increment : Config := { Config.default with indexIncrement := true }
def clip : Config := { Config.default with drawEdge := .clip }
def vxCol : Config := { Config.default with drawAxes := .vxCol }
def depth2 : Config := { Config.default with stackDepth := 2 }

/-! ### Well-formedness -/

/-- DRW with length 0 is the one ill-formed term; lengths 1 and 15 and the same word's unsupported row are accepted
(30_encoding.md R63). -/
theorem test_wellFormed_draw_length :
    (Instr.draw 0x3#4 0x7#4 0x0#4).wellFormed = false ∧ (Instr.draw 0x3#4 0x7#4 0x1#4).wellFormed = true ∧
      (Instr.draw 0x3#4 0x7#4 0xF#4).wellFormed = true ∧ (Instr.unsupDrawLarge 0x3#4 0x7#4).wellFormed = true := by
  decide

/-- No other term is refused, at the largest operands either. -/
theorem test_wellFormed_others :
    Instr.cls.wellFormed = true ∧ (Instr.call 0xFFF#12).wellFormed = true ∧
      (Instr.random 0xF#4 0xFF#8).wellFormed = true ∧ (Instr.unsupScrollDown 0x0#4).wellFormed = true := by
  decide

/-! ### Decoding: the words of 30_encoding.md section 2, written out in bits -/

theorem test_decode_family0 :
    decodeTableWord 16 0b0000000011100000 = some .cls ∧
    decodeTableWord 16 0b0000000011101110 = some .ret ∧
    decodeTableWord 16 0b0000000011000101 = some (.unsupScrollDown 0x5#4) ∧
    decodeTableWord 16 0b0000000011000000 = some (.unsupScrollDown 0x0#4) ∧
    decodeTableWord 16 0b0000000011111011 = some .unsupScrollRight ∧
    decodeTableWord 16 0b0000000011111100 = some .unsupScrollLeft ∧
    decodeTableWord 16 0b0000000011111101 = some .unsupExit ∧
    decodeTableWord 16 0b0000000011111110 = some .unsupLow ∧
    decodeTableWord 16 0b0000000011111111 = some .unsupHigh := by
  decide

theorem test_decode_addresses :
    decodeTableWord 16 0b0001001000001000 = some (.jump 0x208#12) ∧
    decodeTableWord 16 0b0010101010111100 = some (.call 0xABC#12) ∧
    decodeTableWord 16 0b1010001011110000 = some (.loadIndex 0x2F0#12) ∧
    decodeTableWord 16 0b1011111111111111 = some (.jumpOffset 0xFFF#12) := by
  decide

theorem test_decode_immediates :
    decodeTableWord 16 0b0011001000100000 = some (.skipEqImm 0x2#4 0x20#8) ∧
    decodeTableWord 16 0b0100000000000110 = some (.skipNeImm 0x0#4 0x06#8) ∧
    decodeTableWord 16 0b0110111100101010 = some (.loadImm 0xF#4 0x2A#8) ∧
    decodeTableWord 16 0b0111001111111111 = some (.addImm 0x3#4 0xFF#8) ∧
    decodeTableWord 16 0b1100010100001111 = some (.random 0x5#4 0x0F#8) := by
  decide

theorem test_decode_register_skips :
    decodeTableWord 16 0b0101000100100000 = some (.skipEqReg 0x1#4 0x2#4) ∧
    decodeTableWord 16 0b0101000100101111 = some (.skipEqReg 0x1#4 0x2#4) ∧
    decodeTableWord 16 0b1001000100100000 = some (.skipNeReg 0x1#4 0x2#4) ∧
    decodeTableWord 16 0b1001001100110111 = some (.skipNeReg 0x3#4 0x3#4) := by
  decide

theorem test_decode_family8 :
    decodeTableWord 16 0b1000000000010000 = some (.loadReg 0x0#4 0x1#4) ∧
    decodeTableWord 16 0b1000000100100001 = some (.or 0x1#4 0x2#4) ∧
    decodeTableWord 16 0b1000000000010010 = some (.and 0x0#4 0x1#4) ∧
    decodeTableWord 16 0b1000000100010011 = some (.xor 0x1#4 0x1#4) ∧
    decodeTableWord 16 0b1000111100010100 = some (.addReg 0xF#4 0x1#4) ∧
    decodeTableWord 16 0b1000000100100101 = some (.sub 0x1#4 0x2#4) ∧
    decodeTableWord 16 0b1000000100100110 = some (.shiftRight 0x1#4 0x2#4) ∧
    decodeTableWord 16 0b1000000100100111 = some (.subN 0x1#4 0x2#4) ∧
    decodeTableWord 16 0b1000000100101110 = some (.shiftLeft 0x1#4 0x2#4) := by
  decide

theorem test_decode_familyD_and_E :
    decodeTableWord 16 0b1101000000011111 = some (.draw 0x0#4 0x1#4 0xF#4) ∧
    decodeTableWord 16 0b1101111100000001 = some (.draw 0xF#4 0x0#4 0x1#4) ∧
    decodeTableWord 16 0b1101000000010000 = some (.unsupDrawLarge 0x0#4 0x1#4) ∧
    decodeTableWord 16 0b1110000110011110 = some (.skipKey 0x1#4) ∧
    decodeTableWord 16 0b1110000110100001 = some (.skipNotKey 0x1#4) := by
  decide

theorem test_decode_familyF :
    decodeTableWord 16 0b1111010100000111 = some (.getDelay 0x5#4) ∧
    decodeTableWord 16 0b1111001100001010 = some (.waitKey 0x3#4) ∧
    decodeTableWord 16 0b1111000000010101 = some (.setDelay 0x0#4) ∧
    decodeTableWord 16 0b1111000000011000 = some (.setSound 0x0#4) ∧
    decodeTableWord 16 0b1111000000011110 = some (.addIndex 0x0#4) ∧
    decodeTableWord 16 0b1111001100110011 = some (.storeBcd 0x3#4) ∧
    decodeTableWord 16 0b1111001001010101 = some (.storeRegs 0x2#4) ∧
    decodeTableWord 16 0b1111000101100101 = some (.loadRegs 0x1#4) := by
  decide

theorem test_decode_familyF_unsupported :
    decodeTableWord 16 0b1111000000110000 = some (.unsupLargeDigit 0x0#4) ∧
    decodeTableWord 16 0b1111000001110101 = some (.unsupSaveFlags 0x0#4) ∧
    decodeTableWord 16 0b1111010110000101 = some (.unsupLoadFlags 0x5#4) := by
  decide

/-- Words of no row: VD41, VD42, VD40, VA34, VA35, VD27, VD33, VD37, and 00BF just below 00C0. -/
theorem test_decode_rejects :
    decodeTableWord 16 0x0000 = none ∧ decodeTableWord 16 0x0123 = none ∧ decodeTableWord 16 0x00FA = none ∧
    decodeTableWord 16 0x8128 = none ∧ decodeTableWord 16 0x812F = none ∧ decodeTableWord 16 0xE19F = none ∧
    decodeTableWord 16 0xF029 = none ∧ decodeTableWord 16 0xFFFF = none ∧ decodeTableWord 16 0x00BF = none := by
  decide

/-- Fewer than two bytes are no word. -/
theorem test_decodeBytes_truncated : decodeBytes [] = .error .truncated ∧ decodeBytes [0x12#8] = .error .truncated := by
  decide

/-! ### Control transfer -/

/-- VC1 and VC3. -/
theorem test_jump : (start 0x1208).afterStep.pc = 0x208#16 ∧ (start 0x1301).afterStep.pc = 0x301#16 := by decide

/-- VC4 and VC7. -/
theorem test_call :
    (start 0x2ABC).afterStep.pc = 0xABC#16 ∧ (start 0x2ABC).afterStep.stack = [0x202#16] ∧
      (startAt 0xFFE#16 0x2300).afterStep.stack = [0x1000#16] := by
  decide

/-- VC5 and VC6. -/
theorem test_call_overflow :
    { start 0x2ABC with stack := List.replicate 16 0x202#16 }.afterStep.status =
        .faulted .callStackOverflow 0x200#16 (some 0x2ABC#16) ∧
      { startWith depth2 0x2ABC with stack := [0x202#16, 0x202#16] }.afterStep.status =
        .faulted .callStackOverflow 0x200#16 (some 0x2ABC#16) := by
  decide

/-- VC8, and the last pushed of two entries. -/
theorem test_ret :
    { startAt 0xABC#16 0x00EE with stack := [0x204#16] }.afterStep.pc = 0x204#16 ∧
      { start 0x00EE with stack := [0x202#16, 0x302#16] }.afterStep.stack = [0x202#16] ∧
      { start 0x00EE with stack := [0x202#16, 0x302#16] }.afterStep.pc = 0x302#16 := by
  decide

/-- VC9. -/
theorem test_ret_underflow :
    (start 0x00EE).afterStep.status = .faulted .callStackUnderflow 0x200#16 (some 0x00EE#16) ∧
      (start 0x00EE).afterStep.pc = 0x200#16 := by
  decide

/-- VC11, VC12, VC14, VC15. -/
theorem test_skip_immediate :
    (regs (start 0x3220) [(2, 0x20)]).afterStep.pc = 0x204#16 ∧
      (regs (start 0x321F) [(2, 0x20)]).afterStep.pc = 0x202#16 ∧
      (regs (start 0x4006) [(0, 0x05)]).afterStep.pc = 0x204#16 ∧
      (regs (start 0x4005) [(0, 0x05)]).afterStep.pc = 0x202#16 := by
  decide

/-- VC17, VC18, VC20, VC21. -/
theorem test_skip_register :
    (regs (start 0x512F) [(1, 0x07), (2, 0x07)]).afterStep.pc = 0x204#16 ∧
      (regs (start 0x5120) [(1, 0x07), (2, 0x08)]).afterStep.pc = 0x202#16 ∧
      (regs (start 0x9120) [(1, 0x07), (2, 0x08)]).afterStep.pc = 0x204#16 ∧
      (regs (start 0x9337) [(3, 0x09)]).afterStep.pc = 0x202#16 := by
  decide

/-- VC22, VC23, VC25. -/
theorem test_jumpOffset :
    (regs (start 0xB300) [(0, 0x04), (3, 0x09)]).afterStep.pc = 0x304#16 ∧
      (regs (start 0xBFFF) [(0, 0x01)]).afterStep.pc = 0x1000#16 ∧
      (regs (start 0xBFFF) [(0, 0xFF)]).afterStep.pc = 0x10FE#16 := by
  decide

/-! ### Fetch -/

/-- VC24 and VC27: no word in the record, pc unchanged. -/
theorem test_fetch_faults :
    { State.reset with pc := 0x1000#16 }.afterStep.status = .faulted .outOfBoundsAccess 0x1000#16 none ∧
      { State.reset with pc := 0xFFF#16 }.afterStep.status = .faulted .outOfBoundsAccess 0xFFF#16 none ∧
      { State.reset with pc := 0xFFF#16 }.afterStep.pc = 0xFFF#16 := by
  decide

/-- VC26 and VC28. -/
theorem test_last_words :
    (startAt 0xFFC#16 0x3000).afterStep.pc = 0x1000#16 ∧ (startAt 0xFFE#16 0x6001).afterStep.pc = 0x1000#16 ∧
      readReg (startAt 0xFFE#16 0x6001).afterStep 0x0#4 = 0x01#8 := by
  decide

/-- VD41 and VA34: a DecodeError is skipped. -/
theorem test_decodeError :
    State.reset.afterStep.outcome = some (.skippedDecodeError 0x0000#16) ∧ State.reset.afterStep.pc = 0x202#16 ∧
      (regs (start 0x8128) [(1, 0x01)]).afterStep.outcome = some (.skippedDecodeError 0x8128#16) ∧
      readReg (regs (start 0x8128) [(1, 0x01)]).afterStep 0x1#4 = 0x01#8 := by
  decide

/-! ### Register loads, ALU and random -/

/-- VA1 and VA8. -/
theorem test_loads :
    readReg (regs (start 0x6F2A) [(15, 0x01)]).afterStep VF = 0x2A#8 ∧
      readReg (regs (start 0x8010) [(1, 0x09)]).afterStep 0x0#4 = 0x09#8 := by
  decide

/-- VA2 and VA5: the carry of ADD Vx, kk, set and cleared. -/
theorem test_addImm_flag :
    readReg (regs (start 0x73FF) [(3, 0x01)]).afterStep 0x3#4 = 0x00#8 ∧
      readReg (regs (start 0x73FF) [(3, 0x01)]).afterStep VF = 0x01#8 ∧
      readReg (regs (start 0x7300) [(3, 0x80), (15, 0x01)]).afterStep 0x3#4 = 0x80#8 ∧
      readReg (regs (start 0x7300) [(3, 0x80), (15, 0x01)]).afterStep VF = 0x00#8 := by
  decide

/-- VA6 and VA7: the flag wins over the sum in VF. -/
theorem test_addImm_VF :
    readReg (regs (start 0x7F01) [(15, 0xFF)]).afterStep VF = 0x01#8 ∧
      readReg (regs (start 0x7F01) [(15, 0x10)]).afterStep VF = 0x00#8 := by
  decide

/-- VA9, VA14, VA15, VA16. -/
theorem test_logic :
    readReg (regs (start 0x8121) [(1, 0x0F), (2, 0xF0), (15, 0x07)]).afterStep 0x1#4 = 0xFF#8 ∧
      readReg (regs (start 0x8121) [(1, 0x0F), (2, 0xF0), (15, 0x07)]).afterStep VF = 0x07#8 ∧
      readReg (regs (start 0x8012) [(0, 0x3C), (1, 0x0F)]).afterStep 0x0#4 = 0x0C#8 ∧
      readReg (regs (start 0x8113) [(1, 0x5A)]).afterStep 0x1#4 = 0x00#8 ∧
      readReg (regs (start 0x8F01) [(15, 0x01), (0, 0x10)]).afterStep VF = 0x11#8 := by
  decide

/-- VA11 and VA13. -/
theorem test_addReg :
    readReg (regs (start 0x8114) [(1, 0x81)]).afterStep 0x1#4 = 0x02#8 ∧
      readReg (regs (start 0x8114) [(1, 0x81)]).afterStep VF = 0x01#8 ∧
      readReg (regs (start 0x81F4) [(15, 0x01), (1, 0xFF)]).afterStep 0x1#4 = 0x00#8 ∧
      readReg (regs (start 0x8F14) [(15, 0x80), (1, 0x90)]).afterStep VF = 0x01#8 := by
  decide

/-- VA17, VA19, VA20. -/
theorem test_sub :
    readReg (regs (start 0x8125) [(1, 0x09), (2, 0x09)]).afterStep VF = 0x01#8 ∧
      readReg (regs (start 0x8125) [(2, 0x01)]).afterStep 0x1#4 = 0xFF#8 ∧
      readReg (regs (start 0x8125) [(2, 0x01)]).afterStep VF = 0x00#8 ∧
      readReg (regs (start 0x8F15) [(15, 0x03), (1, 0x05)]).afterStep VF = 0x00#8 := by
  decide

/-- VA21, VA22, VA23. -/
theorem test_subN :
    readReg (regs (start 0x8127) [(1, 0x09), (2, 0x09)]).afterStep VF = 0x01#8 ∧
      readReg (regs (start 0x8127) [(1, 0x0A), (2, 0x03)]).afterStep 0x1#4 = 0xF9#8 ∧
      readReg (regs (start 0x8127) [(1, 0x0A), (2, 0x03)]).afterStep VF = 0x00#8 ∧
      readReg (regs (start 0x8127) [(1, 0x07), (2, 0x15)]).afterStep 0x1#4 = 0x0E#8 := by
  decide

/-- VA24, VA25, VA27. -/
theorem test_shiftRight :
    readReg (regs (start 0x8126) [(1, 0x81), (2, 0x02)]).afterStep 0x1#4 = 0x40#8 ∧
      readReg (regs (start 0x8126) [(1, 0x81), (2, 0x02)]).afterStep VF = 0x01#8 ∧
      readReg (regs (startWith shiftVy 0x8126) [(1, 0x81), (2, 0x02)]).afterStep 0x1#4 = 0x01#8 ∧
      readReg (regs (startWith shiftVy 0x8126) [(1, 0x81), (2, 0x02)]).afterStep VF = 0x00#8 ∧
      readReg (regs (start 0x8F06) [(15, 0x02)]).afterStep VF = 0x00#8 := by
  decide

/-- VA28, VA29, VA30. -/
theorem test_shiftLeft :
    readReg (regs (start 0x812E) [(1, 0x81), (2, 0x40)]).afterStep 0x1#4 = 0x02#8 ∧
      readReg (regs (start 0x812E) [(1, 0x81), (2, 0x40)]).afterStep VF = 0x01#8 ∧
      readReg (regs (startWith shiftVy 0x812E) [(1, 0x81), (2, 0x40)]).afterStep 0x1#4 = 0x80#8 ∧
      readReg (regs (startWith shiftVy 0x812E) [(1, 0x81), (2, 0x40)]).afterStep VF = 0x00#8 ∧
      readReg (regs (start 0x8F0E) [(15, 0x80)]).afterStep VF = 0x01#8 := by
  decide

/-- VA31 and VA33, for the free byte: kk = FF stores it as drawn, and one byte is drawn. -/
theorem test_random :
    readReg (regs (start 0xCFFF) [(15, 0x01)]).afterStep VF = Config.randByte 0 0 &&& 0xFF#8 ∧
      readReg (start 0xC50F).afterStep 0x5#4 = Config.randByte 0 0 &&& 0x0F#8 ∧
      (start 0xC50F).afterStep.rng.draws = 1 :=
  ⟨rfl, rfl, rfl⟩

/-! ### Index register and memory transfers -/

/-- VM2, VM3, VM4, VM5. -/
theorem test_index :
    (start 0xAFFF).afterStep.I = 0x0FFF#16 ∧
      (regs { start 0xF01E with I := 0x0FFF#16 } [(0, 0x01)]).afterStep.I = 0x1000#16 ∧
      readReg (regs { start 0xF01E with I := 0x0FFF#16 } [(0, 0x01), (15, 0x07)]).afterStep VF = 0x07#8 ∧
      (regs { start 0xF01E with I := 0xFFFF#16 } [(0, 0x02)]).afterStep.I = 0x0001#16 := by
  decide

/-- VM6 and VM7: the digits, and zero digits over old bytes. -/
theorem test_storeBcd :
    (bytes (start 0xF333) 0x300 [9, 9, 9]).mem ≠ (start 0xF333).mem ∧
      { bytes (start 0xF333) 0x300 [9, 9, 9] with I := 0x300#16 }.afterStep.mem = (start 0xF333).mem ∧
      (regs { start 0xF333 with I := 0x300#16 } [(3, 0xFE)]).afterStep.mem =
        (start 0xF333).mem ++ [(0x300, 2#8), (0x301, 5#8), (0x302, 4#8)] := by
  decide

/-- VM10 and VM11: the last legal I and the first illegal one. -/
theorem test_storeBcd_bounds :
    (regs { start 0xF333 with I := 0xFFD#16 } [(3, 0x7B)]).afterStep.mem.readByte 0xFFF = 0x03#8 ∧
      (regs { start 0xF333 with I := 0xFFE#16 } [(3, 0x7B)]).afterStep.status =
        .faulted .outOfBoundsAccess 0x200#16 (some 0xF333#16) ∧
      (regs { start 0xF333 with I := 0xFFE#16 } [(3, 0x7B)]).afterStep.mem = (start 0xF333).mem := by
  decide

/-- VM12, VM13, VM14. -/
theorem test_storeRegs :
    (regs { start 0xF255 with I := 0x300#16 } [(0, 1), (1, 2), (2, 3), (3, 4)]).afterStep.mem =
        (start 0xF255).mem ++ [(0x300, 1#8), (0x301, 2#8), (0x302, 3#8)] ∧
      { start 0xF255 with I := 0x300#16 }.afterStep.I = 0x300#16 ∧
      { startWith increment 0xF255 with I := 0x300#16 }.afterStep.I = 0x303#16 := by
  decide

/-- VM15 and VM16. -/
theorem test_storeRegs_bounds :
    (regs { start 0xFF55 with I := 0xFF0#16 } [(15, 0xEE)]).afterStep.mem.readByte 0xFFF = 0xEE#8 ∧
      { start 0xFF55 with I := 0xFF1#16 }.afterStep.status =
        .faulted .outOfBoundsAccess 0x200#16 (some 0xFF55#16) := by
  decide

/-- VM17, VM18, VM21. -/
theorem test_loadRegs :
    readReg { bytes (start 0xF165) 0x300 [0xAA, 0xBB, 0xCC] with I := 0x300#16 }.afterStep 0x1#4 = 0xBB#8 ∧
      readReg { bytes (start 0xF165) 0x300 [0xAA, 0xBB, 0xCC] with I := 0x300#16 }.afterStep 0x2#4 = 0x00#8 ∧
      { startWith increment 0xF165 with I := 0x300#16 }.afterStep.I = 0x302#16 ∧
      readReg { start 0xF165 with I := 0x200#16 }.afterStep 0x0#4 = 0xF1#8 := by
  decide

/-- VM19 and VM20. -/
theorem test_loadRegs_bounds :
    readReg (regs { bytes (start 0xFF65) 0x30F [0x77] with I := 0x300#16 } [(15, 0x01)]).afterStep VF = 0x77#8 ∧
      (regs { start 0xF065 with I := 0x1000#16 } [(0, 0x55)]).afterStep.status =
        .faulted .outOfBoundsAccess 0x200#16 (some 0xF065#16) ∧
      readReg (regs { start 0xF065 with I := 0x1000#16 } [(0, 0x55)]).afterStep 0x0#4 = 0x55#8 := by
  decide

/-! ### Display -/

/-- VD1. -/
theorem test_cls :
    (dispByte (dispByte (start 0x00E0) 0 0xFF#8) 255 0x01#8).afterStep.disp = Vector.replicate 256 0#8 := by
  decide +kernel

/-- DRW with V0, V1 and a sprite at 0x300. -/
def drawStart (cfg : Config) (w : Nat) (v0 v1 : Byte) (sprite : List Byte) : State :=
  regs { bytes (startWith cfg w) 0x300 sprite with I := 0x300#16 } [(0, v0), (1, v1)]

/-- VD4 (one pixel erased, three set), VD5, VD6. -/
theorem test_draw :
    (dispByte (drawStart Config.default 0xD011 0 0 [0xF0]) 0 0x10#8).afterStep.disp[0] = 0xE0#8 ∧
      readReg (dispByte (drawStart Config.default 0xD011 0 0 [0xF0]) 0 0x10#8).afterStep VF = 0x01#8 ∧
      (drawStart Config.default 0xD011 1 3 [0xFF]).afterStep.disp[8] = 0x1F#8 ∧
      (drawStart Config.default 0xD011 1 3 [0xFF]).afterStep.disp[9] = 0xE0#8 ∧
      (drawStart vxCol 0xD011 1 3 [0xFF]).afterStep.disp[24] = 0x7F#8 := by
  decide +kernel

/-- VD7, VD8, VD9, VD10, VD12, VD14. -/
theorem test_draw_edges :
    (drawStart Config.default 0xD011 0x00 0x3C [0xFF]).afterStep.disp[0] = 0xF0#8 ∧
      (drawStart clip 0xD011 0x00 0x3C [0xFF]).afterStep.disp[0] = 0x00#8 ∧
      (drawStart clip 0xD011 0x00 0x3C [0xFF]).afterStep.disp[7] = 0x0F#8 ∧
      (drawStart Config.default 0xD013 0x1F 0x00 [0x80, 0x80, 0x80]).afterStep.disp[8] = 0x80#8 ∧
      (drawStart clip 0xD013 0x1F 0x00 [0x80, 0x80, 0x80]).afterStep.disp[0] = 0x00#8 ∧
      (drawStart clip 0xD011 0x21 0x41 [0x80]).afterStep.disp = Vector.replicate 256 0#8 ∧
      { start 0xD012 with I := 0xFFF#16 }.afterStep.status =
        .faulted .outOfBoundsAccess 0x200#16 (some 0xD012#16) := by
  decide +kernel

/-! ### Input and timers -/

/-- VD19, VD21, VD22. -/
theorem test_skipKey :
    (regs { start 0xE19E with key := some 5#4 } [(1, 0x05)]).afterStep.pc = 0x204#16 ∧
      (regs { start 0xE19E with key := some 6#4 } [(1, 0x05)]).afterStep.pc = 0x202#16 ∧
      (regs { start 0xE19E with key := some 5#4 } [(1, 0x15)]).afterStep.pc = 0x202#16 := by
  decide

/-- VD24, VD25, VD26. -/
theorem test_skipNotKey :
    (regs { start 0xE1A1 with key := some 5#4 } [(1, 0x05)]).afterStep.pc = 0x202#16 ∧
      (regs (start 0xE1A1) [(1, 0x05)]).afterStep.pc = 0x204#16 ∧
      (regs { start 0xE1A1 with key := some 0#4 } [(1, 0x20)]).afterStep.pc = 0x204#16 := by
  decide

/-- VD28, VD31, VD32. -/
theorem test_timers :
    readReg { start 0xF507 with DT := 0x3C#8 }.afterStep 0x5#4 = 0x3C#8 ∧
      (regs (start 0xF015) [(0, 0x3C)]).afterStep.DT = 0x3C#8 ∧
      (regs (start 0xF018) [(0, 0x02)]).afterStep.ST = 0x02#8 := by
  decide

/-- VD29 and VD30. -/
theorem test_waitKey :
    (start 0xF30A).afterStep.outcome = some .suspended ∧ (start 0xF30A).afterStep.pc = 0x200#16 ∧
      readReg { start 0xF30A with key := some 0xB#4 }.afterStep 0x3#4 = 0x0B#8 ∧
      { start 0xF30A with key := some 0xB#4 }.afterStep.key = some 0xB#4 ∧
      { start 0xF30A with key := some 0xB#4 }.afterStep.pc = 0x202#16 := by
  decide

/-! ### Unsupported words and the host -/

/-- VD18, VD34, VD35, VD36. -/
theorem test_unsupported_operand_rows :
    (start 0xD010).afterStep.outcome = some (.skippedUnsupported 0xD010#16) ∧
      (start 0xD010).afterStep.pc = 0x202#16 ∧
      (start 0xF030).afterStep.outcome = some (.skippedUnsupported 0xF030#16) ∧
      (start 0xF075).afterStep.outcome = some (.skippedUnsupported 0xF075#16) ∧
      (start 0xF585).afterStep.outcome = some (.skippedUnsupported 0xF585#16) := by
  decide

/-- VD38, VD39, and the other rows of family 0. -/
theorem test_unsupported_family0 :
    (start 0x00C5).afterStep.outcome = some (.skippedUnsupported 0x00C5#16) ∧
      (start 0x00FB).afterStep.outcome = some (.skippedUnsupported 0x00FB#16) ∧
      (start 0x00FC).afterStep.outcome = some (.skippedUnsupported 0x00FC#16) ∧
      (start 0x00FD).afterStep.outcome = some (.skippedUnsupported 0x00FD#16) ∧
      (start 0x00FE).afterStep.outcome = some (.skippedUnsupported 0x00FE#16) ∧
      (start 0x00FF).afterStep.outcome = some (.skippedUnsupported 0x00FF#16) := by
  decide

/-- VH1 and VH2. -/
theorem test_tickTimers :
    { State.reset with DT := 2#8, ST := 0#8 }.tickTimers.DT = 1#8 ∧
      { State.reset with DT := 2#8, ST := 0#8 }.tickTimers.ST = 0#8 ∧
      { State.reset with ST := 1#8 }.tickTimers.tone = false ∧ { State.reset with ST := 1#8 }.tone = true := by
  decide

/-- VH3, VH4, VH5. -/
theorem test_press :
    (({ State.reset with key := some 3#4 }.press 7).map State.key) = some (some 7#4) ∧
      { State.reset with key := some 7#4 }.release.key = none ∧ State.reset.press 16 = none := by
  decide

/-- VH6 and a ROM of two bytes at 0x200. -/
theorem test_loadRom :
    (State.reset.loadRom (List.replicate 3585 0x11#8)).isNone = true ∧
      (State.reset.loadRom [0x12#8, 0x34#8]).map State.mem = some [(0x200, 0x12#8), (0x201, 0x34#8)] := by
  decide +kernel

/-! ### Hypotheses of the statements are met -/

/-- A faulted engine. -/
def faultedState : State := { State.reset with status := .faulted .callStackUnderflow 0x200#16 (some 0x00EE#16) }

/-- A session whose engine is faulted. -/
def faultedSession : Session := { engine := faultedState, phase := .started }

theorem test_meets_EncodeThenDecodeGivesTheInstruction : (Instr.draw 0xF#4 0x0#4 0xF#4).wellFormed = true := by decide

theorem test_meets_DecodeThenEncodeGivesTheWord :
    (decode 0x5120#16 = .ok (.skipEqReg 0x1#4 0x2#4) ∧ opNibble 0x5120#16 = 0x5#4) ∧
      (decode 0x912F#16 = .ok (.skipNeReg 0x1#4 0x2#4) ∧ opNibble 0x912F#16 = 0x9#4) ∧
      (decode 0xFF65#16 = .ok (.loadRegs 0xF#4) ∧ opNibble 0xFF65#16 ≠ 0x5#4 ∧ opNibble 0xFF65#16 ≠ 0x9#4) := by
  decide

theorem test_meets_DecodeSelectsExactlyItsTableRow :
    decode 0xD01F#16 = .ok (.draw 0x0#4 0x1#4 0xF#4) ∧ rowOf (.draw 0x0#4 0x1#4 0xF#4) ∈ opcodeTable ∧
      rowMatches (rowOf (.draw 0x0#4 0x1#4 0xF#4)) 0xD01F#16 = true := by
  decide

/-- Both sides of each decoding equivalence occur. -/
theorem test_meets_decoding_equivalences :
    decode 0x0000#16 = .error (.decodeError 0x0000#16) ∧ decode 0x00E0#16 = .ok .cls ∧
      decode 0x00CF#16 = .ok (.unsupScrollDown 0xF#4) ∧ (Instr.unsupScrollDown 0xF#4).unsupported = true ∧
      decode 0x00D0#16 = .error (.decodeError 0x00D0#16) := by
  decide

/-- Room with 15 entries, none with 16. -/
theorem test_meets_CallPushesTheReturnAddress :
    ({ State.reset with stack := List.replicate 15 0x202#16 }.stack.length ≠ State.reset.cfg.stackDepth) ∧
      ({ State.reset with stack := List.replicate 16 0x202#16 }.stack.length = State.reset.cfg.stackDepth) := by
  decide

theorem test_meets_ReturnPopsTheCallStack :
    { State.reset with stack := [0x204#16] }.stack = [] ++ [0x204#16] ∧ State.reset.stack = [] := by
  decide

/-- A call from reset, and a state with the stack it leaves. -/
theorem test_meets_CallThenReturnRestoresPcAndStack :
    State.reset.stack.length ≠ State.reset.cfg.stackDepth ∧
      ∃ t, exec (.call 0xABC#12) State.reset = .next t ∧ { State.reset with stack := [0x202#16] }.stack = t.stack :=
  ⟨by decide, _, rfl, rfl⟩

/-- The source under either value of SHIFT_SOURCE. -/
theorem test_meets_ShiftsByOneAndSetShiftedOutBit :
    (0x81 : Nat) =
        (readReg (regs (start 0) [(1, 0x81), (2, 0x40)])
          (if (start 0).cfg.shiftSource = .vx then 0x1#4 else 0x2#4)).toNat ∧
      (0x40 : Nat) =
        (readReg (regs (startWith shiftVy 0) [(1, 0x81), (2, 0x40)])
          (if (startWith shiftVy 0).cfg.shiftSource = .vx then 0x1#4 else 0x2#4)).toNat := by
  decide

/-- The last legal I and the first illegal one. -/
theorem test_meets_StoreBcdWritesThreeDigits :
    { State.reset with I := 0xFFD#16 }.I.toNat + 3 ≤ 4096 ∧ { State.reset with I := 0xFFE#16 }.I.toNat + 3 > 4096 := by
  decide

/-- The last legal I of a block of sixteen and the first illegal one; the same states serve LoadRegistersReadsTheBlock. -/
theorem test_meets_StoreRegistersWritesTheBlock :
    { State.reset with I := 0xFF0#16 }.I.toNat + (0xF#4 : RegIdx).toNat + 1 ≤ 4096 ∧
      { State.reset with I := 0xFF1#16 }.I.toNat + (0xF#4 : RegIdx).toNat + 1 > 4096 := by
  decide

theorem test_meets_LoadRegistersReadsTheBlock :
    { State.reset with I := 0xFFF#16 }.I.toNat + (0x0#4 : RegIdx).toNat + 1 ≤ 4096 ∧
      { State.reset with I := 0x1000#16 }.I.toNat + (0x0#4 : RegIdx).toNat + 1 > 4096 := by
  decide

/-- A block stored at 0xFF0 and a state with the memory that leaves. -/
theorem test_meets_StoreThenLoadRestoresTheBlock :
    { State.reset with I := 0xFF0#16 }.I.toNat + (0xF#4 : RegIdx).toNat + 1 ≤ 4096 ∧
      ∃ t u : State, exec (.storeRegs 0xF#4) { State.reset with I := 0xFF0#16 } = .next t ∧ u.mem = t.mem ∧
        u.I = { State.reset with I := 0xFF0#16 }.I :=
  ⟨by decide, _, _, rfl, rfl, rfl⟩

/-- The last two bytes of memory, stored from V14 and V15. -/
theorem test_meets_StoredBytesAreFetched :
    { State.reset with I := 0xFF0#16 }.I.toNat + (0xF#4 : RegIdx).toNat + 1 ≤ 4096 ∧
      (0xF#4 : RegIdx).toNat = (0xE#4 : RegIdx).toNat + 1 ∧ (0xF#4 : RegIdx).toNat ≤ (0xF#4 : RegIdx).toNat ∧
      (0xFFE#16 : Word).toNat = { State.reset with I := 0xFF0#16 }.I.toNat + (0xE#4 : RegIdx).toNat := by
  decide

/-- The last byte, one byte past it, and a canonical memory. -/
theorem test_meets_MemWriteWritesExactlyItsBytes :
    4095 + [1#8].length ≤ 4096 ∧ 4096 + [1#8].length > 4096 ∧ Memory.wf [(4095, 1#8)] = true := by
  decide

/-- A sprite that ends at the last byte, and one that does not. -/
theorem test_meets_DrawFlipsExactlyTheCoveredPixels :
    { State.reset with I := 0xFF1#16 }.I.toNat + (0xF#4 : Nibble).toNat ≤ 4096 ∧
      { State.reset with I := 0xFFF#16 }.I.toNat + (0x2#4 : Nibble).toNat > 4096 ∧
      [0x80#8] = (List.range (0x1#4 : Nibble).toNat).map
        (fun j => (drawStart Config.default 0xD011 0 0 [0x80]).mem.readByte (0x300 + j)) := by
  decide

/-- VD2 twice: the second draw meets the blank display of the last clause in the first state. -/
theorem test_meets_DrawTwiceRestoresTheDisplay :
    (drawStart Config.default 0xD011 0 0 [0xF0]).I.toNat + (0x1#4 : Nibble).toNat ≤ 4096 ∧
      (∀ r c, pix (drawStart Config.default 0xD011 0 0 [0xF0]).disp r c = false) ∧
      ∃ t u : State, exec (.draw 0x0#4 0x1#4 0x1#4) (drawStart Config.default 0xD011 0 0 [0xF0]) = .next t ∧
        u.disp = t.disp ∧ u.mem = (drawStart Config.default 0xD011 0 0 [0xF0]).mem ∧
        u.I = (drawStart Config.default 0xD011 0 0 [0xF0]).I ∧
        u.cfg = (drawStart Config.default 0xD011 0 0 [0xF0]).cfg ∧
        readReg u 0x0#4 = readReg (drawStart Config.default 0xD011 0 0 [0xF0]) 0x0#4 ∧
        readReg u 0x1#4 = readReg (drawStart Config.default 0xD011 0 0 [0xF0]) 0x1#4 :=
  ⟨by decide, fun r c => by revert r c; decide +kernel, _, _, rfl, rfl, rfl, rfl, rfl, rfl, rfl⟩

/-- The key held, another key held, and a value above 15. -/
theorem test_meets_KeySkipsQueryTheLatch :
    (∃ k, { State.reset with key := some 0#4 }.key = some k ∧ k.toNat = (readReg State.reset 0x1#4).toNat) ∧
      (¬ ∃ k, State.reset.key = some k ∧ k.toNat = (readReg State.reset 0x1#4).toNat) ∧
      (readReg (regs State.reset [(1, 0x10)]) 0x1#4).toNat > 15 :=
  ⟨⟨0#4, rfl, rfl⟩, (fun ⟨_, h, _⟩ => nomatch h), by decide⟩

theorem test_meets_WaitKeyTakesTheKeyOrSuspends :
    { State.reset with key := some 0xF#4 }.key = some 0xF#4 ∧ State.reset.key = none := by decide

/-- An unsupported word that a running engine fetches. -/
theorem test_meets_UnsupportedWordsAreSkipped :
    decode 0xF585#16 = .ok (.unsupLoadFlags 0x5#4) ∧ (Instr.unsupLoadFlags 0x5#4).unsupported = true ∧
      (start 0xF585).status = .running ∧ fetch (start 0xF585).mem (start 0xF585).pc = some 0xF585#16 := by
  decide

/-- The last fetchable word. -/
theorem test_meets_StepRunsTheDecodedInstruction :
    (startAt 0xFFE#16 0x6001).status = .running ∧ (startAt 0xFFE#16 0x6001).pc.toNat + 2 ≤ 4096 ∧
      (0x6001#16 : Word).toNat = ((startAt 0xFFE#16 0x6001).mem.readByte (startAt 0xFFE#16 0x6001).pc.toNat).toNat * 256 +
        ((startAt 0xFFE#16 0x6001).mem.readByte ((startAt 0xFFE#16 0x6001).pc.toNat + 1)).toNat ∧
      decode 0x6001#16 = .ok (.loadImm 0x0#4 0x01#8) := by
  decide

theorem test_meets_UndecodableWordIsSkipped :
    (startAt 0xFFE#16 0xF029).status = .running ∧ (startAt 0xFFE#16 0xF029).pc.toNat + 2 ≤ 4096 ∧
      (0xF029#16 : Word).toNat = ((startAt 0xFFE#16 0xF029).mem.readByte (startAt 0xFFE#16 0xF029).pc.toNat).toNat * 256 +
        ((startAt 0xFFE#16 0xF029).mem.readByte ((startAt 0xFFE#16 0xF029).pc.toNat + 1)).toNat ∧
      decode 0xF029#16 = .error (.decodeError 0xF029#16) := by
  decide

theorem test_meets_FetchPastMemoryFaults :
    { State.reset with pc := 0xFFF#16 }.status = .running ∧ { State.reset with pc := 0xFFF#16 }.pc.toNat + 2 > 4096 := by
  decide

theorem test_meets_FaultedEngineTakesNoStep : faultedState.status ≠ .running := by decide

theorem test_meets_FaultEnteredExactlyOnItsCondition :
    State.reset.status = .running ∧ raises .ret State.reset = some .callStackUnderflow ∧
      raises (.storeBcd 0x3#4) { State.reset with I := 0xFFD#16 } = none ∧
      raises (.storeBcd 0x3#4) { State.reset with I := 0xFFE#16 } = some .outOfBoundsAccess := by
  decide

/-- VM11. -/
theorem test_meets_FaultRecordNamesTheFetchedWord :
    { start 0xF333 with I := 0xFFE#16 }.status = .running ∧
      ∃ t, step { start 0xF333 with I := 0xFFE#16 } = .next t ∧
        t.status = .faulted .outOfBoundsAccess 0x200#16 (some 0xF333#16) :=
  ⟨by decide, _, rfl, by decide⟩

/-- One instruction and state for each of the four clauses. -/
theorem test_meets_OutcomeTellsHowTheInstructionEnded :
    Instr.unsupExit.unsupported = true ∧ (Instr.ret.unsupported = false ∧ raises .ret State.reset ≠ none) ∧
      ((∃ x, Instr.waitKey 0x3#4 = .waitKey x) ∧ State.reset.key = none) ∧
      (Instr.cls.unsupported = false ∧ raises .cls State.reset = none ∧
        ((∃ x, Instr.cls = .waitKey x) → State.reset.key ≠ none)) :=
  ⟨by decide, by decide, ⟨⟨_, rfl⟩, rfl⟩, by decide, by decide, fun ⟨_, h⟩ => nomatch h⟩

theorem test_meets_OnlyTheListedStateIsWritten :
    (∃ t, exec (.storeRegs 0xF#4) State.reset = .next t) ∧ raises (.storeRegs 0xF#4) State.reset = none :=
  ⟨⟨_, rfl⟩, by decide⟩

/-- A flag writer that raises nothing, and an instruction that writes no flag and not register 15. -/
theorem test_meets_OnlyFlagWritersChangeVF :
    ((∃ t, exec (.sub 0x1#4 0x2#4) State.reset = .next t) ∧ flagWriter (.sub 0x1#4 0x2#4) = true ∧
        raises (.sub 0x1#4 0x2#4) State.reset = none) ∧
      ((∃ t, exec (.loadRegs 0xE#4) State.reset = .next t) ∧ flagWriter (.loadRegs 0xE#4) = false ∧
        VF ∉ regsWritten (.loadRegs 0xE#4)) :=
  ⟨⟨⟨_, rfl⟩, by decide, by decide⟩, ⟨_, rfl⟩, by decide, by decide⟩

/-- A running engine and a step of it: StepKeepsLatchAndParameters, NoStepReadsTheSoundTimer,
NoStepReadsTheLastOutcome. -/
theorem test_meets_running_step : (start 0xF018).status = .running ∧ ∃ t, step (start 0xF018) = .next t :=
  ⟨by decide, _, rfl⟩

/-- A step that runs SUB. -/
theorem test_meets_OnlyRandomUsesThePrng :
    (start 0x8125).status = .running ∧ (∃ t, step (start 0x8125) = .next t) ∧
      ∀ w x kk, fetch (start 0x8125).mem (start 0x8125).pc = some w → decode w ≠ .ok (.random x kk) := by
  refine ⟨by decide, ⟨_, rfl⟩, fun w x kk hw => ?_⟩
  have h : fetch (start 0x8125).mem (start 0x8125).pc = some 0x8125#16 := by decide
  rw [h] at hw
  injection hw with hw
  subst hw
  exact fun h => nomatch h

/-- The largest pc of the invariant, a full stack with the largest return address, and a step from there. -/
theorem test_meets_EveryStepKeepsTheInvariant :
    Inv { State.reset with pc := 0x10FE#16, stack := List.replicate 16 0x1000#16 } ∧
      ∃ t, step { State.reset with pc := 0x10FE#16, stack := List.replicate 16 0x1000#16 } = .next t :=
  ⟨⟨by decide, by decide, fun a ha => by rw [List.eq_of_mem_replicate ha]; decide, by decide⟩, _, rfl⟩

/-- A session in the middle of a run, its engine at the largest pc of the invariant, and one whose ROM was refused. -/
theorem test_meets_EverySessionKeepsTheInvariant :
    Inv (Session.mk { State.reset with pc := 0x10FE#16 } .started).engine ∧
      Inv (Session.mk State.reset .unstartable).engine :=
  ⟨⟨by decide, by decide, (fun _ h => nomatch h), by decide⟩, ⟨by decide, by decide, (fun _ h => nomatch h), by decide⟩⟩

/-- VC2. -/
theorem test_meets_SelfJumpChangesNothing :
    (start 0x1200).status = .running ∧ (start 0x1200).atSelfJump = true ∧ (start 0x1208).atSelfJump = false := by
  decide

theorem test_meets_ResetLeavesTheListedValues : State.reset = State.resetWith Config.default 0 := rfl

/-- A faulted engine, a transaction that is no reset, and one that is. -/
theorem test_meets_OnlyResetLeavesFaulted :
    faultedSession.engine.status ≠ .running ∧ (∀ seed, Transaction.step ≠ .reset seed) ∧
      ∃ seed, Transaction.reset 7 = .reset seed :=
  ⟨by decide, (fun _ h => nomatch h), 7, rfl⟩

/-- The longest ROM and one byte more. -/
theorem test_meets_RomLoadCopiesVerbatimOrRefuses :
    (Session.boot Config.default 0).phase = .fresh ∧ (List.replicate 3584 1#8).length ≤ 3584 ∧
      (List.replicate 3585 1#8).length > 3584 :=
  ⟨rfl, Nat.le_of_eq List.length_replicate, Nat.le_of_eq List.length_replicate.symm⟩

theorem test_meets_PressReplacesAndReleaseClearsTheKey : 15 ≤ 15 ∧ 16 > 15 := by decide

/-- The whole buffer, a range one byte too long, and a pixel of the last byte. -/
theorem test_meets_HostReadReturnsTheBufferBytes :
    0 * 8 + 0 / 8 + 256 ≤ 256 ∧ 31 * 8 + 63 / 8 + 2 > 256 ∧
      (31 : Fin 32).val * 64 + (63 : Fin 64).val = (0 * 8 + 0 / 8 + 255) * 8 + 7 := by
  decide

end Sys2Proof.Tests
end

section
/-! SUPPORT. Proofs of the control transfer statements (40_control.md): the jump and the two skips on an immediate. -/

namespace Sys2Proof

/-! ### Words 1nnn, 3xkk and 4xkk -/

theorem decode_formatA_jump (nnn : Addr12) : decode (formatA 0x1#4 nnn) = .ok (.jump nnn) := by
  simp [decode]

theorem decode_formatXK_skipEqImm (x : RegIdx) (kk : Byte) :
    decode (formatXK 0x3#4 x kk) = .ok (.skipEqImm x kk) := by
  simp [decode]

theorem decode_formatXK_skipNeImm (x : RegIdx) (kk : Byte) :
    decode (formatXK 0x4#4 x kk) = .ok (.skipNeImm x kk) := by
  simp [decode]

end Sys2Proof

namespace Sys2Proof.Machine

/-! ### The frame of an instruction that retires -/

theorem unchanged_refl (ws : List Part) (s : State) : Unchanged ws s s := by
  constructor <;> intros <;> rfl

/-- Retiring writes pc and the outcome, neither of which the frame compares. -/
theorem unchanged_retired {ws : List Part} {s s' : State} (e : Effect) (h : Unchanged ws s s') :
    Unchanged ws s (retired s' e) :=
  { h with }

/-! ### Meanings -/

theorem exec_jump (nnn : Addr12) (s : State) : exec (.jump nnn) s = .next (retired s (.jump (zextAddr nnn))) := rfl

theorem exec_skipEqImm (x : RegIdx) (kk : Byte) (s : State) :
    exec (.skipEqImm x kk) s = .next (retired s (skipIf (readReg s x == kk))) := rfl

theorem exec_skipNeImm (x : RegIdx) (kk : Byte) (s : State) :
    exec (.skipNeImm x kk) s = .next (retired s (skipIf (readReg s x != kk))) := rfl

/-- All that a skip does (40_control.md R75 to R78), whatever its condition. -/
theorem skip_advances_and_keeps_rest (s : State) {f : Bool} {c : Prop} [Decidable c] (hc : f = true ↔ c) :
    PcAfter (if c then 4 else 2) s (retired s (skipIf f)) ∧ RegsUnchanged [] s (retired s (skipIf f)) ∧
      Unchanged [] s (retired s (skipIf f)) :=
  ⟨pcAfter_skipIf s f hc, regsUnchanged_retired s s _ rfl, unchanged_retired _ (unchanged_refl [] s)⟩

/-! ### The statements -/

/-- Settles O8: pc is set to the zero-extended address, and retiring writes nothing else. -/
theorem jumpGoesToItsAddress : Obligations.JumpGoesToItsAddress := by
  intro nnn s
  exact ⟨decode_formatA_jump nnn, _, exec_jump nnn s, zextAddr_toNat nnn, regsUnchanged_retired s s _ rfl,
    unchanged_retired _ (unchanged_refl [] s)⟩

/-- Settles O12: SE skips on the equality of the two bytes as numbers, SNE on its negation. -/
theorem skipOnImmediate : Obligations.SkipOnImmediate := by
  intro x kk s
  have hEq : (readReg s x == kk) = true ↔ (readReg s x).toNat = kk.toNat := by
    rw [beq_iff_eq, BitVec.toNat_inj]
  have hNe : (readReg s x != kk) = true ↔ ¬ (readReg s x).toNat = kk.toNat := by
    rw [bne_iff_ne, ne_eq, BitVec.toNat_inj]
  refine ⟨decode_formatXK_skipEqImm x kk, decode_formatXK_skipNeImm x kk, ?_, ?_⟩
  · exact ⟨_, exec_skipEqImm x kk s, skip_advances_and_keeps_rest s hEq⟩
  · have hskip := skip_advances_and_keeps_rest s hNe
    rw [ite_not] at hskip
    exact ⟨_, exec_skipNeImm x kk s, hskip⟩

end Sys2Proof.Machine
end

section
/-! SUPPORT. Proofs of the register load and arithmetic statements (41_alu.md): the loads, the bitwise operations, the
additions and the subtractions. -/

namespace Sys2Proof

/-! ### Words 6xkk, 7xkk and 8xyn -/

theorem decode_formatXK_loadImm (x : RegIdx) (kk : Byte) : decode (formatXK 0x6#4 x kk) = .ok (.loadImm x kk) := by
  simp [decode]

theorem decode_formatXK_addImm (x : RegIdx) (kk : Byte) : decode (formatXK 0x7#4 x kk) = .ok (.addImm x kk) := by
  simp [decode]

section Family8
variable (x y : RegIdx)

/-- A word of family 8 is decoded by its low nibble (30_encoding.md R59). -/
theorem decode_formatXYN_family8 (n : Nibble) :
    decode (formatXYN 0x8#4 x y n) = decode8 (formatXYN 0x8#4 x y n) := by
  simp [decode]

theorem decode_formatXYN_loadReg : decode (formatXYN 0x8#4 x y 0x0#4) = .ok (.loadReg x y) := by
  simp [decode_formatXYN_family8, decode8]

theorem decode_formatXYN_or : decode (formatXYN 0x8#4 x y 0x1#4) = .ok (.or x y) := by
  simp [decode_formatXYN_family8, decode8]

theorem decode_formatXYN_and : decode (formatXYN 0x8#4 x y 0x2#4) = .ok (.and x y) := by
  simp [decode_formatXYN_family8, decode8]

theorem decode_formatXYN_xor : decode (formatXYN 0x8#4 x y 0x3#4) = .ok (.xor x y) := by
  simp [decode_formatXYN_family8, decode8]

theorem decode_formatXYN_addReg : decode (formatXYN 0x8#4 x y 0x4#4) = .ok (.addReg x y) := by
  simp [decode_formatXYN_family8, decode8]

theorem decode_formatXYN_sub : decode (formatXYN 0x8#4 x y 0x5#4) = .ok (.sub x y) := by
  simp [decode_formatXYN_family8, decode8]

theorem decode_formatXYN_subN : decode (formatXYN 0x8#4 x y 0x7#4) = .ok (.subN x y) := by
  simp [decode_formatXYN_family8, decode8]

end Family8

end Sys2Proof

namespace Sys2Proof.Machine

/-! ### Meanings -/

section Meanings
variable (x y : RegIdx) (kk : Byte) (s : State)

theorem exec_loadImm : exec (.loadImm x kk) s = .next (retired (writeReg s x kk) .advance) := rfl

theorem exec_loadReg : exec (.loadReg x y) s = .next (retired (writeReg s x (readReg s y)) .advance) := rfl

theorem exec_or :
    exec (.or x y) s = .next (retired (writeReg s x (readReg s x ||| readReg s y)) .advance) := rfl

theorem exec_and :
    exec (.and x y) s = .next (retired (writeReg s x (readReg s x &&& readReg s y)) .advance) := rfl

theorem exec_xor :
    exec (.xor x y) s = .next (retired (writeReg s x (readReg s x ^^^ readReg s y)) .advance) := rfl

theorem exec_addImm :
    exec (.addImm x kk) s =
      .next (retired (writeResult s x (readReg s x + kk) (carryOut (readReg s x) kk)) .advance) := rfl

theorem exec_addReg :
    exec (.addReg x y) s =
      .next (retired (writeResult s x (readReg s x + readReg s y) (carryOut (readReg s x) (readReg s y))) .advance) :=
  rfl

theorem exec_sub :
    exec (.sub x y) s =
      .next (retired (writeResult s x (readReg s x - readReg s y) (noBorrow (readReg s x) (readReg s y))) .advance) :=
  rfl

theorem exec_subN :
    exec (.subN x y) s =
      .next (retired (writeResult s x (readReg s y - readReg s x) (noBorrow (readReg s y) (readReg s x))) .advance) :=
  rfl

end Meanings

/-! ### The frame of a register write -/

/-- Writing a register writes none of the parts a frame compares. -/
theorem unchanged_writeReg {ws : List Part} {s s' : State} (x : RegIdx) (b : Byte) (h : Unchanged ws s s') :
    Unchanged ws s (writeReg s' x b) :=
  { h with }

theorem unchanged_writeResult {ws : List Part} {s s' : State} (x : RegIdx) (r : Byte) (f : Bool)
    (h : Unchanged ws s s') : Unchanged ws s (writeResult s' x r f) :=
  unchanged_writeReg VF _ (unchanged_writeReg x r h)

/-- What an instruction whose one write is a register does to the rest of the state. -/
theorem writeReg_advances_and_keeps_rest (s : State) (x : RegIdx) (b : Byte) :
    PcAfter 2 s (retired (writeReg s x b) .advance) ∧ RegsUnchanged [x] s (retired (writeReg s x b) .advance) ∧
      Unchanged [] s (retired (writeReg s x b) .advance) :=
  ⟨pcAfter_advance s _ rfl, regsUnchanged_writeReg s s _ x b rfl,
    unchanged_retired _ (unchanged_writeReg x b (unchanged_refl [] s))⟩

/-- The flag and the frame of an instruction that writes a result and a flag whose condition is `c`. -/
theorem writeResult_sets_flag_and_keeps_rest (s : State) (x : RegIdx) (r : Byte) {f : Bool} {c : Prop} [Decidable c]
    (hc : f = true ↔ c) :
    (readReg (retired (writeResult s x r f) .advance) VF).toNat = (if c then 1 else 0) ∧
      PcAfter 2 s (retired (writeResult s x r f) .advance) ∧
      RegsUnchanged [x, VF] s (retired (writeResult s x r f) .advance) ∧
      Unchanged [] s (retired (writeResult s x r f) .advance) := by
  refine ⟨?_, pcAfter_advance s _ rfl, regsUnchanged_writeResult s _ x r f,
    unchanged_retired _ (unchanged_writeResult x r f (unchanged_refl [] s))⟩
  simp only [readReg_retired, readReg_writeResult_VF, flagByte_toNat, hc]

/-! ### Sums and differences as numbers -/

theorem carryOut_iff {a b : Byte} : carryOut a b = true ↔ a.toNat + b.toNat > 255 := decide_eq_true_iff

theorem noBorrow_iff {a b : Byte} : noBorrow a b = true ↔ a.toNat ≥ b.toNat := decide_eq_true_iff

/-- A difference of bytes is the integer difference modulo 256 (41_alu.md R89, R91). -/
theorem byte_sub_toNat (a b : Byte) : ((a - b).toNat : Int) = (a.toNat - b.toNat : Int) % 256 := by
  have := a.isLt
  have := b.isLt
  rw [BitVec.toNat_sub]
  omega

section Arithmetic
variable (s : State) (x : RegIdx) (a b : Byte)

/-- All that ADD does (R83, R88), whatever its operands. -/
theorem writeResult_sum_and_carry :
    let t := retired (writeResult s x (a + b) (carryOut a b)) .advance
    (x ≠ VF → (readReg t x).toNat = (a.toNat + b.toNat) % 256) ∧
      (readReg t VF).toNat = (if a.toNat + b.toNat > 255 then 1 else 0) ∧
      PcAfter 2 s t ∧ RegsUnchanged [x, VF] s t ∧ Unchanged [] s t := by
  refine ⟨fun hx => ?_, writeResult_sets_flag_and_keeps_rest s x _ carryOut_iff⟩
  rw [readReg_retired, readReg_writeResult_dest _ _ _ _ hx, BitVec.toNat_add]

/-- All that SUB and SUBN do (R89, R91), whatever their operands. -/
theorem writeResult_difference_and_noBorrow :
    let t := retired (writeResult s x (a - b) (noBorrow a b)) .advance
    (x ≠ VF → ((readReg t x).toNat : Int) = (a.toNat - b.toNat : Int) % 256) ∧
      (readReg t VF).toNat = (if a.toNat ≥ b.toNat then 1 else 0) ∧
      PcAfter 2 s t ∧ RegsUnchanged [x, VF] s t ∧ Unchanged [] s t := by
  refine ⟨fun hx => ?_, writeResult_sets_flag_and_keeps_rest s x _ noBorrow_iff⟩
  rw [readReg_retired, readReg_writeResult_dest _ _ _ _ hx, byte_sub_toNat]

end Arithmetic

/-! ### The statements -/

/-- Settles O15: both loads are one register write, of `kk` or of the old Vy. -/
theorem loadsCopyIntoTheRegister : Obligations.LoadsCopyIntoTheRegister := by
  intro x y kk s
  refine ⟨decode_formatXK_loadImm x kk, decode_formatXYN_loadReg x y, ?_, ?_⟩
  · exact ⟨_, exec_loadImm x kk s, readReg_writeReg_same s x _, writeReg_advances_and_keeps_rest s x _⟩
  · exact ⟨_, exec_loadReg x y s, readReg_writeReg_same s x _, writeReg_advances_and_keeps_rest s x _⟩

/-- Settles O16: each operation is one register write, of the bitwise combination of the old Vx and Vy. -/
theorem logicCombinesEachBit : Obligations.LogicCombinesEachBit := by
  intro x y s
  refine ⟨decode_formatXYN_or x y, decode_formatXYN_and x y, decode_formatXYN_xor x y, ?_, ?_, ?_⟩
  · refine ⟨_, exec_or x y s, fun k => ?_, writeReg_advances_and_keeps_rest s x _⟩
    rw [readReg_retired, readReg_writeReg_same, BitVec.getLsbD_or]
  · refine ⟨_, exec_and x y s, fun k => ?_, writeReg_advances_and_keeps_rest s x _⟩
    rw [readReg_retired, readReg_writeReg_same, BitVec.getLsbD_and]
  · refine ⟨_, exec_xor x y s, fun k => ?_, writeReg_advances_and_keeps_rest s x _⟩
    rw [readReg_retired, readReg_writeReg_same, BitVec.getLsbD_xor]

/-- Settles O17: the operands of the addition are the old Vx and `kk`. -/
theorem addImmediateSetsSumAndCarry : Obligations.AddImmediateSetsSumAndCarry := by
  intro x kk s
  exact ⟨decode_formatXK_addImm x kk, _, exec_addImm x kk s, writeResult_sum_and_carry s x _ _⟩

/-- Settles O18: the operands of the addition are the old Vx and the old Vy. -/
theorem addRegisterSetsSumAndCarry : Obligations.AddRegisterSetsSumAndCarry := by
  intro x y s
  exact ⟨decode_formatXYN_addReg x y, _, exec_addReg x y s, writeResult_sum_and_carry s x _ _⟩

/-- Settles O19: SUB subtracts the old Vy from the old Vx, SUBN the other way round. -/
theorem subtractSetsDifferenceAndNoBorrow : Obligations.SubtractSetsDifferenceAndNoBorrow := by
  intro x y s
  refine ⟨decode_formatXYN_sub x y, decode_formatXYN_subN x y, ?_, ?_⟩
  · exact ⟨_, exec_sub x y s, writeResult_difference_and_noBorrow s x _ _⟩
  · exact ⟨_, exec_subN x y s, writeResult_difference_and_noBorrow s x _ _⟩

end Sys2Proof.Machine
end

section
/-! SUPPORT. Proofs of the index register statements (42_index_memory.md): the load of an address into I. -/

namespace Sys2Proof

theorem decode_formatA_loadIndex (nnn : Addr12) : decode (formatA 0xA#4 nnn) = .ok (.loadIndex nnn) := by
  simp [decode]

end Sys2Proof

namespace Sys2Proof.Machine

theorem exec_loadIndex (nnn : Addr12) (s : State) :
    exec (.loadIndex nnn) s = .next (retired { s with I := zextAddr nnn } .advance) := rfl

/-! ### The frame of an index write -/

/-- Writing I keeps every frame that allows it. -/
theorem unchanged_writeIndex {ws : List Part} {s s' : State} (i : Word) (hi : .index ∈ ws) (h : Unchanged ws s s') :
    Unchanged ws s { s' with I := i } :=
  { h with index := fun hni => absurd hi hni }

/-- What an instruction whose one write is I does to the rest of the state. -/
theorem writeIndex_advances_and_keeps_rest (s : State) (i : Word) :
    PcAfter 2 s (retired { s with I := i } .advance) ∧ RegsUnchanged [] s (retired { s with I := i } .advance) ∧
      Unchanged [.index] s (retired { s with I := i } .advance) :=
  ⟨pcAfter_advance s _ rfl, regsUnchanged_retired s _ _ rfl,
    unchanged_retired _ (unchanged_writeIndex i (List.mem_singleton_self _) (unchanged_refl [.index] s))⟩

/-! ### The statements -/

/-- Settles O22: the one write is I, of the zero-extended address. -/
theorem loadIndexSetsI : Obligations.LoadIndexSetsI := by
  intro nnn s
  exact ⟨decode_formatA_loadIndex nnn, _, exec_loadIndex nnn s, zextAddr_toNat nnn,
    writeIndex_advances_and_keeps_rest s _⟩

end Sys2Proof.Machine
end

section
/-! SUPPORT. Proofs of the display, input and timer statements (43_display_input_timers.md): clearing the display, the
two skips on the latch and the three timer moves. -/

namespace Sys2Proof

/-! ### Words 00E0, Exkk and Fxkk -/

theorem decode_cls : decode 0x00E0#16 = .ok .cls := rfl

section FamiliesEF
variable (x : RegIdx)

/-- A word of family E is decoded by its low byte (30_encoding.md R60). -/
theorem decode_formatXK_familyE (kk : Byte) : decode (formatXK 0xE#4 x kk) = decodeE (formatXK 0xE#4 x kk) := by
  simp [decode]

/-- A word of family F is decoded by its low byte (30_encoding.md R61). -/
theorem decode_formatXK_familyF (kk : Byte) : decode (formatXK 0xF#4 x kk) = decodeF (formatXK 0xF#4 x kk) := by
  simp [decode]

theorem decode_formatXK_skipKey : decode (formatXK 0xE#4 x 0x9E#8) = .ok (.skipKey x) := by
  simp [decode_formatXK_familyE, decodeE]

theorem decode_formatXK_skipNotKey : decode (formatXK 0xE#4 x 0xA1#8) = .ok (.skipNotKey x) := by
  simp [decode_formatXK_familyE, decodeE]

theorem decode_formatXK_getDelay : decode (formatXK 0xF#4 x 0x07#8) = .ok (.getDelay x) := by
  simp [decode_formatXK_familyF, decodeF]

theorem decode_formatXK_setDelay : decode (formatXK 0xF#4 x 0x15#8) = .ok (.setDelay x) := by
  simp [decode_formatXK_familyF, decodeF]

theorem decode_formatXK_setSound : decode (formatXK 0xF#4 x 0x18#8) = .ok (.setSound x) := by
  simp [decode_formatXK_familyF, decodeF]

end FamiliesEF

end Sys2Proof

namespace Sys2Proof.Machine

/-! ### Meanings -/

section Meanings
variable (x : RegIdx) (s : State)

theorem exec_cls : exec .cls s = .next (retired { s with disp := dispClear } .advance) := rfl

theorem exec_skipKey : exec (.skipKey x) s = .next (retired s (skipIf (keyIsPressed s.key (readReg s x)))) := rfl

theorem exec_skipNotKey :
    exec (.skipNotKey x) s = .next (retired s (skipIf (!keyIsPressed s.key (readReg s x)))) := rfl

theorem exec_getDelay : exec (.getDelay x) s = .next (retired (writeReg s x s.DT) .advance) := rfl

theorem exec_setDelay : exec (.setDelay x) s = .next (retired { s with DT := readReg s x } .advance) := rfl

theorem exec_setSound : exec (.setSound x) s = .next (retired { s with ST := readReg s x } .advance) := rfl

end Meanings

/-! ### The frame of a write to the display or a timer -/

/-- What an instruction that advances does, when its own writes to the state keep pc, the registers and a frame. -/
theorem advances_and_keeps_frame {ws : List Part} {s s' : State} (hpc : s'.pc = s.pc) (hV : s'.V = s.V)
    (h : Unchanged ws s s') :
    PcAfter 2 s (retired s' .advance) ∧ RegsUnchanged [] s (retired s' .advance) ∧
      Unchanged ws s (retired s' .advance) :=
  ⟨pcAfter_advance s s' hpc, regsUnchanged_retired s s' _ hV, unchanged_retired _ h⟩

theorem unchanged_writeDisplay (s : State) (d : Display) : Unchanged [.display] s { s with disp := d } :=
  { unchanged_refl [.display] s with display := fun hd => absurd (List.mem_singleton_self _) hd }

theorem unchanged_writeDelay (s : State) (b : Byte) : Unchanged [.delay] s { s with DT := b } :=
  { unchanged_refl [.delay] s with delay := fun hd => absurd (List.mem_singleton_self _) hd }

theorem unchanged_writeSound (s : State) (b : Byte) : Unchanged [.sound] s { s with ST := b } :=
  { unchanged_refl [.sound] s with sound := fun hs => absurd (List.mem_singleton_self _) hs }

/-! ### The cleared buffer and the latch -/

/-- Every byte of the cleared buffer is 0 (20_memory.md R40). -/
theorem dispClear_getElem (k : Fin 256) : dispClear[k] = 0#8 := by
  simp [dispClear]

/-- No latch holds a key above 15 (20_memory.md R45). -/
theorem keyIsPressed_of_gt {key : Option Key} {v : Byte} (hv : v.toNat > 15) : keyIsPressed key v = false := by
  refine Bool.eq_false_iff.2 fun hpressed => ?_
  obtain ⟨k, -, hk⟩ := keyIsPressed_iff.1 hpressed
  have := k.isLt
  omega

/-- The two skips on one condition go opposite ways. -/
theorem skips_go_opposite_ways (s : State) (f : Bool) :
    (f = true → PcAfter 4 s (retired s (skipIf f)) ∧ PcAfter 2 s (retired s (skipIf (!f)))) ∧
      (f = false → PcAfter 2 s (retired s (skipIf f)) ∧ PcAfter 4 s (retired s (skipIf (!f)))) := by
  constructor <;> rintro rfl
  · exact ⟨pcAfter_skipIf s true (c := True) (by simp), pcAfter_skipIf s false (c := False) (by simp)⟩
  · exact ⟨pcAfter_skipIf s false (c := False) (by simp), pcAfter_skipIf s true (c := True) (by simp)⟩

/-! ### The statements -/

/-- Settles O30: the one write is the display, of the cleared buffer. -/
theorem clearZeroesTheDisplay : Obligations.ClearZeroesTheDisplay := by
  intro s
  exact ⟨decode_cls, _, exec_cls s, pix_dispClear, dispClear_getElem,
    advances_and_keeps_frame rfl rfl (unchanged_writeDisplay s _)⟩

/-- Settles O33: both skips ask whether the latch holds the key Vx, which it never does for a value above 15. -/
theorem keySkipsQueryTheLatch : Obligations.KeySkipsQueryTheLatch := by
  intro x s
  obtain ⟨hpressed, hnot⟩ := skips_go_opposite_ways s (keyIsPressed s.key (readReg s x))
  refine ⟨decode_formatXK_skipKey x, decode_formatXK_skipNotKey x, _, _, exec_skipKey x s, exec_skipNotKey x s,
    regsUnchanged_retired s s _ rfl, unchanged_retired _ (unchanged_refl [] s),
    regsUnchanged_retired s s _ rfl, unchanged_retired _ (unchanged_refl [] s), ?_, ?_, ?_⟩
  · intro hheld
    exact hpressed (keyIsPressed_iff.2 hheld)
  · intro hheld
    exact hnot (Bool.eq_false_iff.2 fun h => hheld (keyIsPressed_iff.1 h))
  · intro hgt
    exact hnot (keyIsPressed_of_gt hgt)

/-- Settles O34: LD Vx, DT is one register write of the old DT; the other two write one timer, of the old Vx. -/
theorem timerMoves : Obligations.TimerMoves := by
  intro x s
  refine ⟨decode_formatXK_getDelay x, decode_formatXK_setDelay x, decode_formatXK_setSound x, ?_, ?_, ?_⟩
  · exact ⟨_, exec_getDelay x s, readReg_writeReg_same s x _, writeReg_advances_and_keeps_rest s x _⟩
  · exact ⟨_, exec_setDelay x s, rfl, advances_and_keeps_frame rfl rfl (unchanged_writeDelay s _)⟩
  · exact ⟨_, exec_setSound x s, rfl, advances_and_keeps_frame rfl rfl (unchanged_writeSound s _)⟩

end Sys2Proof.Machine
end

section
/-! SUPPORT. Proofs of the exception statements (60_exceptions.md): the words the decoder classifies as unsupported, and
the skip they answer. -/

namespace Sys2Proof

/-! ### The word of an unsupported instruction -/

section Decoded
variable {w : Word} {i : Instr}

/-- A branch of the decoder that answers a supported instruction is not the one an unsupported instruction comes from. -/
theorem else_branch_of_unsupported {c : Prop} [Decidable c] {j : Instr} {rest : Except DecodeFailure Instr}
    (hj : j.unsupported = false) (hdec : (if c then .ok j else rest) = .ok i) (hun : i.unsupported = true) :
    rest = .ok i := by
  split_ifs at hdec
  · cases hdec
    simp [hj] at hun
  · exact hdec

/-- The unsupported rows of family 0 (30_encoding.md R58): five fixed words and 00Cn. -/
theorem encode_of_decode0_unsupported (hop : opNibble w = 0x0#4) (hdec : decode0 w = .ok i)
    (hun : i.unsupported = true) : encode i = w := by
  unfold decode0 at hdec
  -- CLS and RET are tested first.
  iterate 2 replace hdec := else_branch_of_unsupported rfl hdec hun
  split_ifs at hdec with hright hleft hexit hlow hhigh hdown <;> cases hdec
  · exact hright.symm
  · exact hleft.symm
  · exact hexit.symm
  · exact hlow.symm
  · exact hhigh.symm
  · obtain ⟨hx, hy⟩ := hdown
    have hw := formatXYN_of_fields w
    rwa [hop, hx, hy] at hw

/-- The unsupported row of family D (R63): Dxy0. -/
theorem encode_of_decodeD_unsupported (hop : opNibble w = 0xD#4) (hdec : decodeD w = .ok i)
    (hun : i.unsupported = true) : encode i = w := by
  unfold decodeD at hdec
  split_ifs at hdec with hn <;> cases hdec
  · have hw := formatXYN_of_fields w
    rwa [hop, hn] at hw
  · cases hun

/-- The unsupported rows of family F (R61): Fx30, Fx75 and Fx85. -/
theorem encode_of_decodeF_unsupported (hop : opNibble w = 0xF#4) (hdec : decodeF w = .ok i)
    (hun : i.unsupported = true) : encode i = w := by
  have hw := formatXK_of_fields w
  rw [hop] at hw
  unfold decodeF at hdec
  -- The eight supported rows are tested first.
  iterate 8 replace hdec := else_branch_of_unsupported rfl hdec hun
  split_ifs at hdec with hdigit hsave hload <;> cases hdec
  · rwa [hdigit] at hw
  · rwa [hsave] at hw
  · rwa [hload] at hw

/-- Family 8 has no unsupported row (R59). -/
theorem decode8_supported (hdec : decode8 w = .ok i) : i.unsupported = false := by
  unfold decode8 at hdec
  split at hdec <;> cases hdec <;> rfl

/-- Family E has no unsupported row (R60). -/
theorem decodeE_supported (hdec : decodeE w = .ok i) : i.unsupported = false := by
  unfold decodeE at hdec
  split_ifs at hdec <;> cases hdec <;> rfl

/-- Unsupported words stand in the families 0, D and F alone (R64). -/
theorem decode_unsupported_cases (hdec : decode w = .ok i) (hun : i.unsupported = true) :
    (opNibble w = 0x0#4 ∧ decode0 w = .ok i) ∨ (opNibble w = 0xD#4 ∧ decodeD w = .ok i) ∨
      (opNibble w = 0xF#4 ∧ decodeF w = .ok i) := by
  unfold decode at hdec
  split at hdec
  case h_1 hop => exact .inl ⟨BitVec.eq_of_toNat_eq hop, hdec⟩
  case h_9 => simp [decode8_supported hdec] at hun
  case h_14 hop => exact .inr (.inl ⟨BitVec.eq_of_toNat_eq hop, hdec⟩)
  case h_15 => simp [decodeE_supported hdec] at hun
  case h_16 =>
    have hop : (opNibble w).toNat = 15 := by
      have := (opNibble w).isLt
      simp only [imp_false] at *
      omega
    exact .inr (.inr ⟨BitVec.eq_of_toNat_eq hop, hdec⟩)
  all_goals
    cases hdec
    cases hun

/-- No unsupported row ignores a bit of its word (R64), so the encoder gives back the decoded word. -/
theorem encode_of_decode_unsupported (hdec : decode w = .ok i) (hun : i.unsupported = true) : encode i = w := by
  obtain ⟨hop, h0⟩ | ⟨hop, hD⟩ | ⟨hop, hF⟩ := decode_unsupported_cases hdec hun
  · exact encode_of_decode0_unsupported hop h0 hun
  · exact encode_of_decodeD_unsupported hop hD hun
  · exact encode_of_decodeF_unsupported hop hF hun

end Decoded

end Sys2Proof

namespace Sys2Proof.Machine

/-! ### The skip -/

/-- The state a skipped word answers, whatever its outcome (60_exceptions.md R110, R111): pc + 2. -/
def skipped (s : State) (o : StepOutcome) : State := { s with pc := nextPc s.pc .advance, outcome := some o }

theorem skipUnsupported_eq (i : Instr) (s : State) :
    skipUnsupported i s = .next (skipped s (.skippedUnsupported (encode i))) := rfl

/-- All that a skip does to the state of the block. -/
theorem skipped_advances_and_keeps_rest (s : State) (o : StepOutcome) :
    PcAfter 2 s (skipped s o) ∧ RegsUnchanged [] s (skipped s o) ∧ Unchanged [] s (skipped s o) :=
  ⟨nextPc_advance_toNat, fun _ _ => rfl, { unchanged_refl [] s with }⟩

theorem exec_of_unsupported {i : Instr} (hun : i.unsupported = true) (s : State) :
    exec i s = skipUnsupported i s := by
  obtain ⟨_, _, hsup, _⟩ | ⟨_, _, hexec⟩ | ⟨_, hsup, _⟩ := exec_cases i s
  · simp [hun] at hsup
  · exact hexec
  · simp [hun] at hsup

/-! ### The statements -/

/-- Settles O36: an unsupported instruction is skipped with its own word, and that is the fetched one. -/
theorem unsupportedWordsAreSkipped : Obligations.UnsupportedWordsAreSkipped := by
  intro w i s hdec hun
  have hexec : exec i s = .next (skipped s (.skippedUnsupported w)) := by
    rw [exec_of_unsupported hun, skipUnsupported_eq, encode_of_decode_unsupported hdec hun]
  obtain ⟨hpc, hregs, hrest⟩ := skipped_advances_and_keeps_rest s (.skippedUnsupported w)
  exact ⟨_, hexec, hpc, hregs, hrest, rfl, fun hrun hfetch => (step_of_decode hrun hfetch hdec).trans hexec⟩

end Sys2Proof.Machine
end

section
/-! SUPPORT. Proofs of the encoding statements (30_encoding.md): the round trips between words and instructions, and the
decoder against the opcode table. -/

namespace Sys2Proof

/-! ### Decoding what the encoder writes -/

section Formats
variable (x y : RegIdx) (n : Nibble)

/-- The sixteen words 00Cn (30_encoding.md R58, R64). -/
theorem decode_formatXYN_unsupScrollDown : decode (formatXYN 0x0#4 0x0#4 0xC#4 n) = .ok (.unsupScrollDown n) := by
  revert n
  decide

theorem decode_formatXYN_skipEqReg : decode (formatXYN 0x5#4 x y n) = .ok (.skipEqReg x y) := by
  simp [decode]

theorem decode_formatXYN_skipNeReg : decode (formatXYN 0x9#4 x y n) = .ok (.skipNeReg x y) := by
  simp [decode]

theorem decode_formatXYN_unsupDrawLarge : decode (formatXYN 0xD#4 x y 0x0#4) = .ok (.unsupDrawLarge x y) := by
  simp [decode, decodeD]

theorem decode_formatXYN_draw (hn : n ≠ 0x0#4) : decode (formatXYN 0xD#4 x y n) = .ok (.draw x y n) := by
  simp [decode, decodeD, hn]

end Formats

/-- The decoder gives back every well-formed instruction: DRW is the one whose word depends on being well formed
(R63). -/
theorem decode_encode {i : Instr} (hwf : i.wellFormed = true) : decode (encode i) = .ok i := by
  cases i
  case draw x y n => exact decode_formatXYN_draw x y n (by simpa [Instr.wellFormed] using hwf)
  case unsupDrawLarge x y => exact decode_formatXYN_unsupDrawLarge x y
  case unsupScrollDown n => exact decode_formatXYN_unsupScrollDown n
  case skipEqReg x y => exact decode_formatXYN_skipEqReg x y _
  case skipNeReg x y => exact decode_formatXYN_skipNeReg x y _
  -- The words of family 0 are literals.
  case cls | ret | unsupScrollRight | unsupScrollLeft | unsupExit | unsupLow | unsupHigh => rfl
  case loadReg | or | and | xor | addReg | sub | shiftRight | subN | shiftLeft =>
    simp [encode, decode_formatXYN_family8, decode8]
  case skipKey | skipNotKey => simp [encode, decode_formatXK_familyE, decodeE]
  case getDelay | waitKey | setDelay | setSound | addIndex | storeBcd | storeRegs | loadRegs | unsupLargeDigit
      | unsupSaveFlags | unsupLoadFlags =>
    simp [encode, decode_formatXK_familyF, decodeF]
  -- The families that one format fills: 1 to 4, 6, 7, A, B and C.
  all_goals simp [encode, decode]

/-! ### Encoding what the decoder read -/

section Decoded
variable {w : Word} {i : Instr}

theorem formatA_of_opNibble {op : Nibble} (hop : (opNibble w).toNat = op.toNat) : formatA op (fieldNnn w) = w := by
  rw [← BitVec.eq_of_toNat_eq hop, formatA_of_fields]

theorem formatXK_of_opNibble {op : Nibble} (hop : (opNibble w).toNat = op.toNat) :
    formatXK op (fieldX w) (fieldKk w) = w := by
  rw [← BitVec.eq_of_toNat_eq hop, formatXK_of_fields]

theorem formatXYN_of_opNibble {op : Nibble} (hop : (opNibble w).toNat = op.toNat) :
    formatXYN op (fieldX w) (fieldY w) (fieldN w) = w := by
  rw [← BitVec.eq_of_toNat_eq hop, formatXYN_of_fields]

/-- A word of family 0 (30_encoding.md R58). -/
theorem encode_of_decode0 (hop : (opNibble w).toNat = 0x0) (hdec : decode0 w = .ok i) :
    i.wellFormed = true ∧ encode i = w := by
  have hw := formatXYN_of_opNibble (op := 0x0#4) hop
  unfold decode0 at hdec
  split_ifs at hdec <;> cases hdec
  iterate 7 exact ⟨rfl, Eq.symm ‹_›⟩
  obtain ⟨hx, hy⟩ := ‹fieldX w = 0x0#4 ∧ fieldY w = 0xC#4›
  rw [hx, hy] at hw
  exact ⟨rfl, hw⟩

/-- A word of family 8 (R59). -/
theorem encode_of_decode8 (hop : (opNibble w).toNat = 0x8) (hdec : decode8 w = .ok i) :
    i.wellFormed = true ∧ encode i = w := by
  have hw {n : Nibble} (hn : (fieldN w).toNat = n.toNat) : formatXYN 0x8#4 (fieldX w) (fieldY w) n = w :=
    BitVec.eq_of_toNat_eq hn ▸ formatXYN_of_opNibble hop
  unfold decode8 at hdec
  split at hdec <;> cases hdec
  all_goals exact ⟨rfl, hw ‹_›⟩

/-- A word of family D (R63). -/
theorem encode_of_decodeD (hop : (opNibble w).toNat = 0xD) (hdec : decodeD w = .ok i) :
    i.wellFormed = true ∧ encode i = w := by
  have hw := formatXYN_of_opNibble (op := 0xD#4) hop
  unfold decodeD at hdec
  split_ifs at hdec with hn <;> cases hdec
  · rw [hn] at hw
    exact ⟨rfl, hw⟩
  · exact ⟨by simpa [Instr.wellFormed] using hn, hw⟩

/-- A word of family E (R60). -/
theorem encode_of_decodeE (hop : (opNibble w).toNat = 0xE) (hdec : decodeE w = .ok i) :
    i.wellFormed = true ∧ encode i = w := by
  have hw {kk : Byte} (hkk : fieldKk w = kk) : formatXK 0xE#4 (fieldX w) kk = w := hkk ▸ formatXK_of_opNibble hop
  unfold decodeE at hdec
  split_ifs at hdec <;> cases hdec
  all_goals exact ⟨rfl, hw ‹_›⟩

/-- A word of family F (R61). -/
theorem encode_of_decodeF (hop : (opNibble w).toNat = 0xF) (hdec : decodeF w = .ok i) :
    i.wellFormed = true ∧ encode i = w := by
  have hw {kk : Byte} (hkk : fieldKk w = kk) : formatXK 0xF#4 (fieldX w) kk = w := hkk ▸ formatXK_of_opNibble hop
  unfold decodeF at hdec
  iterate 11
    split at hdec
    next hkk =>
      cases hdec
      exact ⟨rfl, hw hkk⟩
  cases hdec

/-- What a decoded word is: a word of family 5 or 9, whose low nibble is ignored (R62), or the word of its
instruction. -/
theorem decode_ok_cases (hdec : decode w = .ok i) :
    (opNibble w = 0x5#4 ∧ i = .skipEqReg (fieldX w) (fieldY w)) ∨
    (opNibble w = 0x9#4 ∧ i = .skipNeReg (fieldX w) (fieldY w)) ∨
    (opNibble w ≠ 0x5#4 ∧ opNibble w ≠ 0x9#4 ∧ i.wellFormed = true ∧ encode i = w) := by
  have hother (h5 : (opNibble w).toNat ≠ 5) (h9 : (opNibble w).toNat ≠ 9) (h : i.wellFormed = true ∧ encode i = w) :
      opNibble w ≠ 0x5#4 ∧ opNibble w ≠ 0x9#4 ∧ i.wellFormed = true ∧ encode i = w :=
    ⟨fun hop => h5 (congrArg BitVec.toNat hop), fun hop => h9 (congrArg BitVec.toNat hop), h⟩
  unfold decode at hdec
  split at hdec
  case h_6 hop =>
    cases hdec
    exact .inl ⟨BitVec.eq_of_toNat_eq hop, rfl⟩
  case h_10 hop =>
    cases hdec
    exact .inr (.inl ⟨BitVec.eq_of_toNat_eq hop, rfl⟩)
  all_goals refine .inr (.inr (hother (by omega) (by omega) ?_))
  case h_1 hop => exact encode_of_decode0 hop hdec
  case h_9 hop => exact encode_of_decode8 hop hdec
  case h_14 hop => exact encode_of_decodeD hop hdec
  case h_15 hop => exact encode_of_decodeE hop hdec
  case h_16 =>
    refine encode_of_decodeF ?_ hdec
    have := (opNibble w).isLt
    simp only [imp_false] at *
    omega
  case h_2 hop | h_3 hop | h_11 hop | h_12 hop =>
    cases hdec
    exact ⟨rfl, formatA_of_opNibble hop⟩
  all_goals
    cases hdec
    exact ⟨rfl, formatXK_of_opNibble ‹_›⟩

end Decoded

section Table
variable {w : Word}

/-! ### The opcode table -/

/-- Every instruction has a row of the table (30_encoding.md R66). -/
theorem rowOf_mem_opcodeTable (i : Instr) : rowOf i ∈ opcodeTable := by
  cases i <;> simp [opcodeTable, rowOf]

/-- Every row of the table is the row of an instruction. -/
theorem exists_rowOf_of_mem {r : OpcodeRow} (hr : r ∈ opcodeTable) : ∃ i, rowOf i = r := by
  revert r
  simp [opcodeTable]

/-! ### A field under a mask -/

section Masks
variable {m p : Word} (h : w &&& m = p)
include h

theorem opNibble_of_masked (hm : opNibble m = 0xF#4) : opNibble w = opNibble p := by
  rw [← h, opNibble, opNibble, BitVec.extractLsb'_and, ← opNibble, ← opNibble, hm]
  exact BitVec.and_allOnes.symm

theorem fieldN_of_masked (hm : fieldN m = 0xF#4) : fieldN w = fieldN p := by
  rw [← h, fieldN, fieldN, BitVec.extractLsb'_and, ← fieldN, ← fieldN, hm]
  exact BitVec.and_allOnes.symm

theorem fieldKk_of_masked (hm : fieldKk m = 0xFF#8) : fieldKk w = fieldKk p := by
  rw [← h, fieldKk, fieldKk, BitVec.extractLsb'_and, ← fieldKk, ← fieldKk, hm]
  exact BitVec.and_allOnes.symm

end Masks

/-- Every row fixes the high nibble of its words. -/
theorem opNibble_mask (i : Instr) : opNibble (rowOf i).mask = 0xF#4 := by
  cases i <;> simp [rowOf, opNibble]

/-- A word in a row of the table decodes to an instruction of that row (30_encoding.md R66). -/
theorem decode_of_rowMatches {i : Instr} (h : rowMatches (rowOf i) w = true) :
    ∃ j, decode w = .ok j ∧ rowOf j = rowOf i := by
  obtain ⟨hmask, hlen⟩ : w &&& (rowOf i).mask = (rowOf i).pattern ∧
      ((rowOf i).lengthNonzero = true → fieldN w ≠ 0x0#4) := by
    simpa [rowMatches, Bool.or_eq_true, imp_iff_not_or] using h
  have hop := opNibble_of_masked hmask (opNibble_mask i)
  cases i
  -- Rows of one word.
  case cls | ret | unsupScrollRight | unsupScrollLeft | unsupExit | unsupLow | unsupHigh =>
    obtain rfl : w = _ := (BitVec.and_allOnes (x := w)).symm.trans hmask
    exact ⟨_, rfl, rfl⟩
  -- Rows of a whole family.
  case jump | call | skipEqImm | skipNeImm | skipEqReg | loadImm | addImm | skipNeReg | loadIndex | jumpOffset
      | random =>
    simp [decode, hop, rowOf, opNibble_toNat]
  -- The row with the length condition.
  case draw =>
    simp [decode, decodeD, hop, rowOf, opNibble_toNat, hlen rfl]
  -- Rows with a fixed low nibble.
  case unsupDrawLarge =>
    have hn := fieldN_of_masked hmask (rfl : fieldN 0xF00F#16 = 0xF#4)
    simp +decide [decode, decodeD, hop, hn, rowOf, opNibble_toNat]
  case loadReg | or | and | xor | addReg | sub | shiftRight | subN | shiftLeft =>
    have hn := fieldN_of_masked hmask (rfl : fieldN 0xF00F#16 = 0xF#4)
    simp [decode, decode8, hop, hn, rowOf, opNibble_toNat, fieldN_toNat]
  -- Rows with a fixed low byte, in family E and, at the end, in family F.
  case skipKey | skipNotKey =>
    have hkk := fieldKk_of_masked hmask (rfl : fieldKk 0xF0FF#16 = 0xFF#8)
    simp +decide [decode, decodeE, hop, hkk, rowOf, opNibble_toNat]
  -- The row 00Cn.
  case unsupScrollDown n =>
    have hfields : formatXYN (opNibble w) (fieldX w) (fieldY w) 0 = formatXYN 0x0#4 0x0#4 0xC#4 0 := by
      rw [← Laws.EncodingMatchesRow.formatN_and _ _ _ (fieldN w), formatXYN_of_fields]
      exact hmask
    have hop : opNibble w = 0x0#4 := by simpa using congrArg opNibble hfields
    have hx : fieldX w = 0x0#4 := by simpa using congrArg fieldX hfields
    have hy : fieldY w = 0xC#4 := by simpa using congrArg fieldY hfields
    have hw := formatXYN_of_fields w
    rw [hop, hx, hy] at hw
    exact ⟨_, (congrArg decode hw).symm.trans (decode_formatXYN_unsupScrollDown _), rfl⟩
  all_goals
    have hkk := fieldKk_of_masked hmask (rfl : fieldKk 0xF0FF#16 = 0xFF#8)
    simp +decide [decode, decodeF, hop, hkk, rowOf, opNibble_toNat]

end Table

section Decoded
variable {w : Word} {i : Instr}

/-- A well-formed instruction's word selects its row: the laws of the row, one per instruction (R57, R66). -/
theorem rowMatches_encode (hwf : i.wellFormed = true) : rowMatches (rowOf i) (encode i) = true := by
  cases i with
  | cls => exact Laws.EncodingMatchesRow.cls hwf
  | ret => exact Laws.EncodingMatchesRow.ret hwf
  | jump nnn => exact Laws.EncodingMatchesRow.jump nnn hwf
  | call nnn => exact Laws.EncodingMatchesRow.call nnn hwf
  | skipEqImm x kk => exact Laws.EncodingMatchesRow.skipEqImm x kk hwf
  | skipNeImm x kk => exact Laws.EncodingMatchesRow.skipNeImm x kk hwf
  | skipEqReg x y => exact Laws.EncodingMatchesRow.skipEqReg x y hwf
  | loadImm x kk => exact Laws.EncodingMatchesRow.loadImm x kk hwf
  | addImm x kk => exact Laws.EncodingMatchesRow.addImm x kk hwf
  | loadReg x y => exact Laws.EncodingMatchesRow.loadReg x y hwf
  | or x y => exact Laws.EncodingMatchesRow.or x y hwf
  | and x y => exact Laws.EncodingMatchesRow.and x y hwf
  | xor x y => exact Laws.EncodingMatchesRow.xor x y hwf
  | addReg x y => exact Laws.EncodingMatchesRow.addReg x y hwf
  | sub x y => exact Laws.EncodingMatchesRow.sub x y hwf
  | shiftRight x y => exact Laws.EncodingMatchesRow.shiftRight x y hwf
  | subN x y => exact Laws.EncodingMatchesRow.subN x y hwf
  | shiftLeft x y => exact Laws.EncodingMatchesRow.shiftLeft x y hwf
  | skipNeReg x y => exact Laws.EncodingMatchesRow.skipNeReg x y hwf
  | loadIndex nnn => exact Laws.EncodingMatchesRow.loadIndex nnn hwf
  | jumpOffset nnn => exact Laws.EncodingMatchesRow.jumpOffset nnn hwf
  | random x kk => exact Laws.EncodingMatchesRow.random x kk hwf
  | draw x y n => exact Laws.EncodingMatchesRow.draw x y n hwf
  | skipKey x => exact Laws.EncodingMatchesRow.skipKey x hwf
  | skipNotKey x => exact Laws.EncodingMatchesRow.skipNotKey x hwf
  | getDelay x => exact Laws.EncodingMatchesRow.getDelay x hwf
  | waitKey x => exact Laws.EncodingMatchesRow.waitKey x hwf
  | setDelay x => exact Laws.EncodingMatchesRow.setDelay x hwf
  | setSound x => exact Laws.EncodingMatchesRow.setSound x hwf
  | addIndex x => exact Laws.EncodingMatchesRow.addIndex x hwf
  | storeBcd x => exact Laws.EncodingMatchesRow.storeBcd x hwf
  | storeRegs x => exact Laws.EncodingMatchesRow.storeRegs x hwf
  | loadRegs x => exact Laws.EncodingMatchesRow.loadRegs x hwf
  | unsupScrollDown n => exact Laws.EncodingMatchesRow.unsupScrollDown n hwf
  | unsupScrollRight => exact Laws.EncodingMatchesRow.unsupScrollRight hwf
  | unsupScrollLeft => exact Laws.EncodingMatchesRow.unsupScrollLeft hwf
  | unsupExit => exact Laws.EncodingMatchesRow.unsupExit hwf
  | unsupLow => exact Laws.EncodingMatchesRow.unsupLow hwf
  | unsupHigh => exact Laws.EncodingMatchesRow.unsupHigh hwf
  | unsupDrawLarge x y => exact Laws.EncodingMatchesRow.unsupDrawLarge x y hwf
  | unsupLargeDigit x => exact Laws.EncodingMatchesRow.unsupLargeDigit x hwf
  | unsupSaveFlags x => exact Laws.EncodingMatchesRow.unsupSaveFlags x hwf
  | unsupLoadFlags x => exact Laws.EncodingMatchesRow.unsupLoadFlags x hwf

/-- A word of family 5 or 9 is in the family's row, whatever its low nibble (R62). -/
theorem rowMatches_of_opNibble {op : Nibble} (hop : opNibble w = op) :
    rowMatches ⟨0xF000#16, formatXYN op 0 0 0, false⟩ w = true := by
  refine Laws.EncodingMatchesRow.rowMatches_of_mask ?_ rfl
  rw [← hop, ← Laws.EncodingMatchesRow.formatXYN_and _ (fieldX w) (fieldY w) (fieldN w), formatXYN_of_fields]

/-- Every decoded word selects the row of its instruction, the ignored low nibble of families 5 and 9 included. -/
theorem rowMatches_of_decode (hdec : decode w = .ok i) : rowMatches (rowOf i) w = true := by
  obtain ⟨hop, rfl⟩ | ⟨hop, rfl⟩ | ⟨-, -, hwf, rfl⟩ := decode_ok_cases hdec
  · exact rowMatches_of_opNibble hop
  · exact rowMatches_of_opNibble hop
  · exact rowMatches_encode hwf

/-- An error of a decoder that tests a condition first comes from the rest of its tests. -/
theorem else_branch_of_error {c : Prop} [Decidable c] {j : Instr} {rest : Except DecodeFailure Instr}
    {e : DecodeFailure} (hdec : (if c then .ok j else rest) = .error e) : rest = .error e := by
  split_ifs at hdec
  exact hdec

/-- The decoder's one failure is the DecodeError of its word (R65). -/
theorem decode_error_eq {e : DecodeFailure} (hdec : decode w = .error e) : e = .decodeError w := by
  unfold decode at hdec
  split at hdec
  case h_1 =>
    unfold decode0 at hdec
    iterate 8 replace hdec := else_branch_of_error hdec
    cases hdec
    rfl
  case h_9 =>
    unfold decode8 at hdec
    split at hdec <;> cases hdec
    rfl
  case h_14 =>
    unfold decodeD at hdec
    cases else_branch_of_error hdec
  case h_15 =>
    unfold decodeE at hdec
    iterate 2 replace hdec := else_branch_of_error hdec
    cases hdec
    rfl
  case h_16 =>
    unfold decodeF at hdec
    iterate 11 replace hdec := else_branch_of_error hdec
    cases hdec
    rfl
  all_goals cases hdec

end Decoded

/-! ### The unsupported words -/

/-- The words of 30_encoding.md section 3 that are unsupported. -/
def UnsupportedWord (w : Word) : Prop :=
  (0x00C0 ≤ w.toNat ∧ w.toNat ≤ 0x00CF) ∨ (0x00FB ≤ w.toNat ∧ w.toNat ≤ 0x00FF) ∨
    (opNibble w = 0xD#4 ∧ fieldN w = 0x0#4) ∨
    (opNibble w = 0xF#4 ∧ (fieldKk w = 0x30#8 ∨ fieldKk w = 0x75#8 ∨ fieldKk w = 0x85#8))

theorem wellFormed_of_unsupported {i : Instr} (hun : i.unsupported = true) : i.wellFormed = true := by
  cases i
  case draw => cases hun
  all_goals rfl

/-- The word of every unsupported instruction is listed. -/
theorem unsupportedWord_encode {i : Instr} (hun : i.unsupported = true) : UnsupportedWord (encode i) := by
  cases i
  case unsupScrollDown n =>
    have hw := formatXYN_toNat 0x0#4 0x0#4 0xC#4 n
    simp only [BitVec.toNat_ofNat] at hw
    have := n.isLt
    exact .inl (by simp only [encode]; omega)
  case unsupScrollRight | unsupScrollLeft | unsupExit | unsupLow | unsupHigh => exact .inr (.inl (by decide))
  case unsupDrawLarge x y => exact .inr (.inr (.inl ⟨opNibble_formatXYN .., fieldN_formatXYN ..⟩))
  case unsupLargeDigit x | unsupSaveFlags x | unsupLoadFlags x =>
    exact .inr (.inr (.inr ⟨opNibble_formatXK .., by simp [encode]⟩))
  all_goals cases hun

/-- Every listed word is the word of an unsupported instruction. -/
theorem exists_unsupported_of_unsupportedWord {w : Word} (hw : UnsupportedWord w) :
    ∃ i : Instr, i.unsupported = true ∧ encode i = w := by
  obtain ⟨hlo, hhi⟩ | ⟨hlo, hhi⟩ | ⟨hop, hn⟩ | ⟨hop, hkk⟩ := hw
  · refine ⟨.unsupScrollDown (fieldN w), rfl, BitVec.eq_of_toNat_eq ?_⟩
    rw [encode, formatXYN_toNat, fieldN_toNat]
    simp only [BitVec.toNat_ofNat]
    omega
  · have hval : w.toNat = 0xFB ∨ w.toNat = 0xFC ∨ w.toNat = 0xFD ∨ w.toNat = 0xFE ∨ w.toNat = 0xFF := by omega
    obtain h | h | h | h | h := hval
    · exact ⟨.unsupScrollRight, rfl, (BitVec.eq_of_toNat_eq h).symm⟩
    · exact ⟨.unsupScrollLeft, rfl, (BitVec.eq_of_toNat_eq h).symm⟩
    · exact ⟨.unsupExit, rfl, (BitVec.eq_of_toNat_eq h).symm⟩
    · exact ⟨.unsupLow, rfl, (BitVec.eq_of_toNat_eq h).symm⟩
    · exact ⟨.unsupHigh, rfl, (BitVec.eq_of_toNat_eq h).symm⟩
  · refine ⟨.unsupDrawLarge (fieldX w) (fieldY w), rfl, ?_⟩
    have := formatXYN_of_fields w
    rwa [hop, hn] at this
  · have := formatXK_of_fields w
    rw [hop] at this
    obtain hkk | hkk | hkk := hkk <;> rw [hkk] at this
    · exact ⟨.unsupLargeDigit (fieldX w), rfl, this⟩
    · exact ⟨.unsupSaveFlags (fieldX w), rfl, this⟩
    · exact ⟨.unsupLoadFlags (fieldX w), rfl, this⟩

/-! ### The statements -/

/-- Settles O1: each format's fields are the operands the encoder put in. -/
theorem encodeThenDecodeGivesTheInstruction : Obligations.EncodeThenDecodeGivesTheInstruction :=
  fun _ hwf => decode_encode hwf

/-- Settles O2: outside families 5 and 9 no bit of the word is ignored. -/
theorem decodeThenEncodeGivesTheWord : Obligations.DecodeThenEncodeGivesTheWord := by
  intro w i hdec
  have hclear {op : Nibble} (hop : opNibble w = op) : formatXYN op (fieldX w) (fieldY w) 0 = w &&& 0xFFF0#16 := by
    rw [← hop, ← Laws.EncodingMatchesRow.formatN_and _ _ _ (fieldN w), formatXYN_of_fields]
  obtain ⟨hop, rfl⟩ | ⟨hop, rfl⟩ | ⟨h5, h9, hwf, henc⟩ := decode_ok_cases hdec
  · exact ⟨rfl, fun h => absurd hop h.1, fun _ => hclear hop⟩
  · exact ⟨rfl, fun h => absurd hop h.2, fun _ => hclear hop⟩
  · exact ⟨hwf, fun _ => henc, fun h => absurd h (not_or.2 ⟨h5, h9⟩)⟩

/-- Settles O3: a second row would make the same word decode to an instruction of that row. -/
theorem decodeSelectsExactlyItsTableRow : Obligations.DecodeSelectsExactlyItsTableRow := by
  intro w i hdec
  refine ⟨rowMatches_of_decode hdec, fun r hr hmatch => ?_⟩
  obtain ⟨i', rfl⟩ := exists_rowOf_of_mem hr
  obtain ⟨j, hj, hrow⟩ := decode_of_rowMatches hmatch
  obtain rfl : i = j := Except.ok.inj (hdec.symm.trans hj)
  exact hrow.symm

/-- Settles O4: a word decodes exactly when some row has it. -/
theorem decodeErrorExactlyOffTheTable : Obligations.DecodeErrorExactlyOffTheTable := by
  intro w
  constructor
  · intro herr r hr
    obtain ⟨i, rfl⟩ := exists_rowOf_of_mem hr
    refine Bool.eq_false_iff.2 fun hmatch => ?_
    obtain ⟨j, hj, -⟩ := decode_of_rowMatches hmatch
    cases herr.symm.trans hj
  · intro hoff
    rcases hdec : decode w with e | i
    · rw [decode_error_eq hdec]
    · have hmatch := rowMatches_of_decode hdec
      rw [hoff _ (rowOf_mem_opcodeTable i)] at hmatch
      cases hmatch

/-- Settles O5: the decoder of both families reads x and y alone. -/
theorem skipRegisterIgnoresTheLowNibble : Obligations.SkipRegisterIgnoresTheLowNibble :=
  fun x y n => ⟨decode_formatXYN_skipEqReg x y n, decode_formatXYN_skipNeReg x y n⟩

/-- Settles O6: no unsupported word has an ignored bit, so each is the word the encoder writes. -/
theorem unsupportedExactlyTheListedWords : Obligations.UnsupportedExactlyTheListedWords := by
  intro w
  constructor
  · rintro ⟨i, hdec, hun⟩
    obtain rfl := encode_of_decode_unsupported hdec hun
    exact unsupportedWord_encode hun
  · intro hlisted
    obtain ⟨i, hun, rfl⟩ := exists_unsupported_of_unsupportedWord hlisted
    exact ⟨i, decode_encode (wellFormed_of_unsupported hun), hun⟩

/-- Settles O7: each word is decoded as it stands. -/
theorem wordsOfEachFamilyDecode : Obligations.WordsOfEachFamilyDecode := by
  unfold Obligations.WordsOfEachFamilyDecode
  decide

end Sys2Proof
end

section
/-! SUPPORT. Proofs of the other control transfer statements (40_control.md): calls and returns, the skips on a register
and the jump with an offset. -/

namespace Sys2Proof.Machine

/-! ### Meanings -/

theorem exec_skipEqReg (x y : RegIdx) (s : State) :
    exec (.skipEqReg x y) s = .next (retired s (skipIf (readReg s x == readReg s y))) := rfl

theorem exec_skipNeReg (x y : RegIdx) (s : State) :
    exec (.skipNeReg x y) s = .next (retired s (skipIf (readReg s x != readReg s y))) := rfl

theorem exec_jumpOffset (nnn : Addr12) (s : State) :
    exec (.jumpOffset nnn) s = .next (retired s (.jump (zextAddr nnn + zextByte (readReg s 0x0#4)))) := rfl

/-- An instruction that raises its fault answers the state of the fault's record (60_exceptions.md R113). -/
theorem exists_faultedBy {code : FaultCode} {i : Instr} {s : State} (h : exec i s = raiseFault code i s) :
    ∃ t, exec i s = .next t ∧ FaultedBy code i s t :=
  ⟨_, h, rfl⟩

/-! ### The frame of a stack write and the target of a jump with an offset -/

theorem unchanged_writeStack (s : State) (l : List Word) : Unchanged [.stack] s { s with stack := l } :=
  { unchanged_refl [.stack] s with stack := fun hs => absurd (List.mem_singleton_self _) hs }

/-- What an instruction whose one write is the stack does to the rest of the state. -/
theorem writeStack_keeps_rest (s : State) (l : List Word) (e : Effect) :
    RegsUnchanged [] s (retired { s with stack := l } e) ∧ Unchanged [.stack] s (retired { s with stack := l } e) :=
  ⟨regsUnchanged_retired s _ _ rfl, unchanged_retired _ (unchanged_writeStack s l)⟩

/-- The sum of a 12-bit address and a byte fits in 16 bits (40_control.md R71, R79). -/
theorem jumpOffset_target_toNat (nnn : Addr12) (b : Byte) :
    (zextAddr nnn + zextByte b).toNat = nnn.toNat + b.toNat := by
  have := nnn.isLt
  have := b.isLt
  rw [BitVec.toNat_add, zextAddr_toNat, zextByte_toNat]
  omega

/-! ### The statements -/

/-- Settles O9: a call either finds room and pushes, or raises its fault. -/
theorem callPushesTheReturnAddress : Obligations.CallPushesTheReturnAddress := by
  intro nnn s
  constructor
  · intro hroom
    exact ⟨_, _, execCall_of_room s nnn hroom, rfl, nextPc_advance_toNat, zextAddr_toNat nnn,
      writeStack_keeps_rest s _ _⟩
  · intro hfull
    exact exists_faultedBy (execCall_of_full s nnn hfull)

/-- Settles O10: a return either pops the top of the stack, or raises its fault. -/
theorem returnPopsTheCallStack : Obligations.ReturnPopsTheCallStack := by
  intro s
  constructor
  · intro rest a hstack
    exact ⟨_, execRet_of_append s hstack, rfl, rfl, writeStack_keeps_rest s rest _⟩
  · intro hempty
    exact exists_faultedBy (execRet_of_empty s hempty)

/-- Settles O11: the return pops the address the call pushed. -/
theorem callThenReturnRestoresPcAndStack : Obligations.CallThenReturnRestoresPcAndStack := by
  intro nnn s hroom
  refine ⟨_, execCall_of_room s nnn hroom, fun u hu => ?_⟩
  exact ⟨_, execRet_of_append u hu, rfl, nextPc_advance_toNat⟩

/-- Settles O13: SE skips on the equality of the two registers as numbers, SNE on its negation. -/
theorem skipOnRegister : Obligations.SkipOnRegister := by
  intro x y s
  have hEq : (readReg s x == readReg s y) = true ↔ (readReg s x).toNat = (readReg s y).toNat := by
    rw [beq_iff_eq, BitVec.toNat_inj]
  have hNe : (readReg s x != readReg s y) = true ↔ ¬ (readReg s x).toNat = (readReg s y).toNat := by
    rw [bne_iff_ne, ne_eq, BitVec.toNat_inj]
  constructor
  · exact ⟨_, exec_skipEqReg x y s, skip_advances_and_keeps_rest s hEq⟩
  · have hskip := skip_advances_and_keeps_rest s hNe
    rw [ite_not] at hskip
    exact ⟨_, exec_skipNeReg x y s, hskip⟩

/-- Settles O14: the target is the sum on integers, and retiring writes nothing else. -/
theorem jumpOffsetAddsV0Unmasked : Obligations.JumpOffsetAddsV0Unmasked := by
  intro nnn s
  exact ⟨_, exec_jumpOffset nnn s, jumpOffset_target_toNat nnn _, regsUnchanged_retired s s _ rfl,
    unchanged_retired _ (unchanged_refl [] s)⟩

end Sys2Proof.Machine
end

section
/-! SUPPORT. Proofs of the shift and random statements (41_alu.md). -/

namespace Sys2Proof.Machine

/-! ### Meanings -/

section Meanings
variable (x y : RegIdx) (kk : Byte) (s : State)

theorem exec_shiftRight :
    exec (.shiftRight x y) s =
      .next (retired (writeResult s x (shiftOperand s x y >>> 1) (lowBit (shiftOperand s x y))) .advance) := rfl

theorem exec_shiftLeft :
    exec (.shiftLeft x y) s =
      .next (retired (writeResult s x (shiftOperand s x y <<< 1) (highBit (shiftOperand s x y))) .advance) := rfl

theorem exec_random :
    exec (.random x kk) s =
      .next (retired (writeReg { s with rng := (randByte s.rng).2 } x ((randByte s.rng).1 &&& kk)) .advance) := rfl

end Meanings

/-! ### Shifts as numbers -/

/-- The bit shifted out to the right is the remainder by 2 (41_alu.md R90). -/
theorem lowBit_iff {b : Byte} : lowBit b = true ↔ b.toNat % 2 = 1 := decide_eq_true_iff

/-- The bit shifted out to the left is the quotient by 128 (R92). -/
theorem highBit_iff {b : Byte} : highBit b = true ↔ b.toNat / 128 = 1 := decide_eq_true_iff

/-- A number that is 0 or 1 is its own flag. -/
theorem ite_eq_one_of_lt_two {k : Nat} (hk : k < 2) : (if k = 1 then 1 else 0) = k := by
  split <;> omega

theorem shiftRight_one_toNat (b : Byte) : (b >>> 1).toNat = b.toNat / 2 := by
  rw [BitVec.toNat_ushiftRight, Nat.shiftRight_eq_div_pow, pow_one]

theorem shiftLeft_one_toNat (b : Byte) : (b <<< 1).toNat = b.toNat * 2 % 256 := by
  rw [BitVec.toNat_shiftLeft, Nat.shiftLeft_eq, pow_one]

section Shifts
variable (s : State) (x : RegIdx) (b : Byte)

/-- All that SHR does, whatever its source. -/
theorem writeResult_shifted_right :
    let t := retired (writeResult s x (b >>> 1) (lowBit b)) .advance
    (x ≠ VF → (readReg t x).toNat = b.toNat / 2) ∧ (readReg t VF).toNat = b.toNat % 2 ∧
      PcAfter 2 s t ∧ RegsUnchanged [x, VF] s t ∧ Unchanged [] s t := by
  have hflag := writeResult_sets_flag_and_keeps_rest s x (b >>> 1) (lowBit_iff (b := b))
  rw [ite_eq_one_of_lt_two (Nat.mod_lt _ two_pos)] at hflag
  refine ⟨fun hx => ?_, hflag⟩
  rw [readReg_retired, readReg_writeResult_dest _ _ _ _ hx, shiftRight_one_toNat]

/-- All that SHL does, whatever its source. -/
theorem writeResult_shifted_left :
    let t := retired (writeResult s x (b <<< 1) (highBit b)) .advance
    (x ≠ VF → (readReg t x).toNat = b.toNat * 2 % 256) ∧ (readReg t VF).toNat = b.toNat / 128 ∧
      PcAfter 2 s t ∧ RegsUnchanged [x, VF] s t ∧ Unchanged [] s t := by
  have hlt : b.toNat / 128 < 2 := by have := b.isLt; omega
  have hflag := writeResult_sets_flag_and_keeps_rest s x (b <<< 1) (highBit_iff (b := b))
  rw [ite_eq_one_of_lt_two hlt] at hflag
  refine ⟨fun hx => ?_, hflag⟩
  rw [readReg_retired, readReg_writeResult_dest _ _ _ _ hx, shiftLeft_one_toNat]

end Shifts

theorem unchanged_writeRng (s : State) (g : Rng) : Unchanged [.rng] s { s with rng := g } :=
  { unchanged_refl [.rng] s with rng := fun hg => absurd (List.mem_singleton_self _) hg }

/-! ### The statements -/

/-- Settles O20: both shifts work on the register that SHIFT_SOURCE selects. -/
theorem shiftsByOneAndSetShiftedOutBit : Obligations.ShiftsByOneAndSetShiftedOutBit := by
  intro x y s src hsrc
  rw [← shiftOperand_eq] at hsrc
  subst hsrc
  exact ⟨⟨_, exec_shiftRight x y s, writeResult_shifted_right s x _⟩,
    ⟨_, exec_shiftLeft x y s, writeResult_shifted_left s x _⟩⟩

/-- Settles O21: one register write of the masked byte, after one draw. -/
theorem randomMasksTheDrawnByte : Obligations.RandomMasksTheDrawnByte := by
  intro x kk s
  refine ⟨_, exec_random x kk s, fun k => ?_, rfl, pcAfter_advance s _ rfl, regsUnchanged_writeReg s _ _ x _ rfl,
    unchanged_retired _ (unchanged_writeReg x _ (unchanged_writeRng s _))⟩
  rw [readReg_retired, readReg_writeReg_same, BitVec.getLsbD_and]

end Sys2Proof.Machine
end

section
/-! SUPPORT. Proofs of the memory transfer statements (42_index_memory.md, 20_memory.md). -/

namespace Sys2Proof

theorem decode_formatXK_storeBcd (x : RegIdx) : decode (formatXK 0xF#4 x 0x33#8) = .ok (.storeBcd x) :=
  decode_encode (i := .storeBcd x) rfl

end Sys2Proof

namespace Sys2Proof.Machine

/-! ### Bounds and frames -/

theorem inBounds_of_le {a n : Nat} (h : a + n ≤ 4096) : inBounds a n := h

theorem not_inBounds_of_lt {a n : Nat} (h : a + n > 4096) : ¬ inBounds a n := Nat.not_le.2 h

/-- A frame that allows more parts is kept too. -/
theorem Unchanged.mono {ws ws' : List Part} {s t : State} (hws : ws ⊆ ws') (h : Unchanged ws s t) :
    Unchanged ws' s t where
  index hn := h.index (mt (hws ·) hn)
  delay hn := h.delay (mt (hws ·) hn)
  sound hn := h.sound (mt (hws ·) hn)
  stack hn := h.stack (mt (hws ·) hn)
  memory hn := h.memory (mt (hws ·) hn)
  display hn := h.display (mt (hws ·) hn)
  rng hn := h.rng (mt (hws ·) hn)
  status hn := h.status (mt (hws ·) hn)
  key := h.key
  cfg := h.cfg

/-! ### The index register -/

theorem exec_addIndex (x : RegIdx) (s : State) :
    exec (.addIndex x) s = .next (retired { s with I := s.I + zextByte (readReg s x) } .advance) := rfl

/-- I after the optional post-increment, as a number (42_index_memory.md R98, R99). -/
theorem bumpIndex_I_toNat (x : RegIdx) (s : State) :
    (bumpIndex x s).I.toNat =
      if s.cfg.indexIncrement then (s.I.toNat + x.toNat + 1) % 65536 else s.I.toNat := by
  rw [bumpIndex_I]
  split
  · rw [BitVec.toNat_add, BitVec.toNat_ofNat, Nat.add_mod_mod, blockLength, Nat.add_assoc]
  · rfl

/-- The post-increment keeps every frame that allows I where INDEX_INCREMENT holds. -/
theorem unchanged_bumpIndex {ws : List Part} {s s' : State} (x : RegIdx)
    (hi : s'.cfg.indexIncrement = true → .index ∈ ws) (h : Unchanged ws s s') : Unchanged ws s (bumpIndex x s') := by
  unfold bumpIndex
  split
  · next hinc => exact unchanged_writeIndex _ (hi hinc) h
  · exact h

/-! ### Blocks in memory -/

section Blocks
variable (s : State) (x : RegIdx)

/-- Bytes written from `a` on leave every address outside their range alone. -/
theorem readByte_writeBytes_outside (bs : List Byte) (m : Memory) {a k : Nat} (hk : k < a ∨ a + bs.length ≤ k) :
    (m.writeBytes a bs).readByte k = m.readByte k := by
  obtain hk | hk := hk
  · exact Memory.readByte_writeBytes_below bs m hk
  · exact Memory.readByte_writeBytes_above bs m hk

/-- The three bytes LD B, Vx stores are the decimal digits of Vx (R97). -/
theorem bcdDigits_toNat (v : Byte) :
    (bcdDigits v)[0].toNat = v.toNat / 100 ∧ (bcdDigits v)[1].toNat = v.toNat / 10 % 10 ∧
      (bcdDigits v)[2].toNat = v.toNat % 10 := by
  have := v.isLt
  simp only [bcdDigits, List.getElem_cons_zero, List.getElem_cons_succ, BitVec.toNat_ofNat]
  omega

/-- The stored block reads back register by register (R98). -/
theorem readByte_stored_block {r : RegIdx} (hr : r.toNat ≤ x.toNat) :
    (s.mem.writeBytes s.I.toNat (regBlock s x)).readByte (s.I.toNat + r.toNat) = readReg s r := by
  have hlt : r.toNat < (regBlock s x).length := by
    rw [regBlock_length, blockLength]
    omega
  rw [Memory.readByte_writeBytes_inside _ _ _ hlt, regBlock_getElem]
  rfl

theorem unchanged_writeMemory (m : Memory) : Unchanged [.memory] s { s with mem := m } :=
  { unchanged_refl [.memory] s with memory := fun hm => absurd (List.mem_singleton_self _) hm }

/-- A register of the block a load leaves (R99). -/
theorem readReg_loaded_block (r : RegIdx) (e : Effect) :
    readReg (retired (bumpIndex x { s with
        V := loadBlock s.V 0 ((List.range (blockLength x)).map fun j => s.mem.readByte (s.I.toNat + j)) }) e) r =
      if r.toNat ≤ x.toNat then s.mem.readByte (s.I.toNat + r.toNat) else readReg s r := by
  rw [readReg_retired, readReg_congr _ r (bumpIndex_V ..)]
  exact loadBlock_readReg s x r _

end Blocks

/-! ### The statements -/

/-- Settles O23: the one write is I, of the sum modulo 2^16. -/
theorem addIndexWrapsAt16BitsWithoutFlag : Obligations.AddIndexWrapsAt16BitsWithoutFlag := by
  intro x s
  refine ⟨_, exec_addIndex x s, ?_, writeIndex_advances_and_keeps_rest s _⟩
  rw [retired_I, BitVec.toNat_add, zextByte_toNat]

/-- Settles O24: in bounds the three digits are written at I, otherwise the fault is raised. -/
theorem storeBcdWritesThreeDigits : Obligations.StoreBcdWritesThreeDigits := by
  intro x s
  refine ⟨decode_formatXK_storeBcd x, fun hin => ?_, fun hout => ?_⟩
  · have hdigit {j : Nat} (hj : j < 3) :
        (s.mem.writeBytes s.I.toNat (bcdDigits (readReg s x))).readByte (s.I.toNat + j) =
          (bcdDigits (readReg s x))[j] :=
      Memory.readByte_writeBytes_inside _ _ _ hj
    obtain ⟨hhundreds, htens, hones⟩ := bcdDigits_toNat (readReg s x)
    exact ⟨_, execStoreBcd_of_inBounds s x hin,
      (congrArg BitVec.toNat (hdigit (j := 0) (by decide))).trans hhundreds,
      (congrArg BitVec.toNat (hdigit (j := 1) (by decide))).trans htens,
      (congrArg BitVec.toNat (hdigit (j := 2) (by decide))).trans hones,
      fun a ha => readByte_writeBytes_outside _ _ ha,
      advances_and_keeps_frame rfl rfl (unchanged_writeMemory s _)⟩
  · exact exists_faultedBy (execStoreBcd_of_outOfBounds s x (not_inBounds_of_lt hout))

/-- Settles O25: in bounds the block is written at I, otherwise the fault is raised. -/
theorem storeRegistersWritesTheBlock : Obligations.StoreRegistersWritesTheBlock := by
  intro x s
  refine ⟨fun hin => ?_, fun hout => ?_⟩
  · refine ⟨_, execStoreRegs_of_inBounds s x hin, fun r hr => ?_, fun a ha => ?_, ?_, ?_⟩
    · rw [retired_mem, bumpIndex_mem]
      exact readByte_stored_block s x hr
    · rw [retired_mem, bumpIndex_mem]
      exact readByte_writeBytes_outside _ _ (by rwa [regBlock_length])
    · exact bumpIndex_I_toNat x _
    · exact advances_and_keeps_frame (bumpIndex_pc ..) (bumpIndex_V ..)
        (unchanged_bumpIndex x (fun _ => by simp) ((unchanged_writeMemory s _).mono (by simp)))
  · exact exists_faultedBy (execStoreRegs_of_outOfBounds s x (not_inBounds_of_lt hout))

/-- Settles O26: in bounds the block is read at I, otherwise the fault is raised. -/
theorem loadRegistersReadsTheBlock : Obligations.LoadRegistersReadsTheBlock := by
  intro x s
  refine ⟨fun hin => ?_, fun hout => ?_⟩
  · exact ⟨_, execLoadRegs_of_inBounds s x hin, fun r => readReg_loaded_block s x r _, bumpIndex_I_toNat x _,
      pcAfter_advance s _ (bumpIndex_pc ..),
      unchanged_retired _ (unchanged_bumpIndex x (fun _ => by simp) { unchanged_refl [.index] s with })⟩
  · exact exists_faultedBy (execLoadRegs_of_outOfBounds s x (not_inBounds_of_lt hout))

/-- Settles O27: the load reads the bytes the store left, at the same address. -/
theorem storeThenLoadRestoresTheBlock : Obligations.StoreThenLoadRestoresTheBlock := by
  intro x s hin
  refine ⟨_, execStoreRegs_of_inBounds s x hin, fun u hmem hI => ?_⟩
  rw [retired_mem, bumpIndex_mem] at hmem
  have hinU : inBounds u.I.toNat (blockLength x) := by rwa [hI]
  refine ⟨_, execLoadRegs_of_inBounds u x hinU, fun r hr => ?_⟩
  rw [readReg_loaded_block, if_pos hr, hI, hmem]
  exact readByte_stored_block s x hr

/-- Settles O28: the two fetched bytes are two bytes of the stored block. -/
theorem storedBytesAreFetched : Obligations.StoredBytesAreFetched := by
  intro x r r' s pc hin hr' hrx hpc
  have hpcIn : inBounds pc.toNat 2 := inBounds_of_le (by omega)
  refine ⟨_, _, execStoreRegs_of_inBounds s x hin, fetch_of_inBounds hpcIn, ?_⟩
  have hnext : pc.toNat + 1 = s.I.toNat + r'.toNat := by omega
  rw [bigEndian_toNat, retired_mem, bumpIndex_mem, hnext, hpc]
  congr
  · exact readByte_stored_block s x (by omega)
  · exact readByte_stored_block s x hrx

/-- Settles O29: an address is inside the written bytes, or the write leaves it alone. -/
theorem memWriteWritesExactlyItsBytes : Obligations.MemWriteWritesExactlyItsBytes := by
  intro m addr bytes
  refine ⟨fun hin => ⟨_, memWrite_of_inBounds hin, fun a => ?_, fun hm => Memory.wf_writeBytes bytes hin hm⟩,
    fun hout => memWrite_eq_none_iff.2 (not_inBounds_of_lt hout)⟩
  by_cases hlo : addr ≤ a
  · obtain ⟨j, rfl⟩ := Nat.exists_eq_add_of_le hlo
    rw [if_pos hlo, Nat.add_sub_cancel_left]
    by_cases hj : j < bytes.length
    · rw [Memory.readByte_writeBytes_inside _ _ _ hj, List.getD_eq_getElem _ _ hj]
    · rw [readByte_writeBytes_outside _ _ (.inr (by omega)), List.getD_eq_default _ _ (by omega)]
  · rw [if_neg hlo, readByte_writeBytes_outside _ _ (.inl (by omega))]

end Sys2Proof.Machine
end

section
/-! SUPPORT. Proofs of the draw and key wait statements (43_display_input_timers.md). -/

namespace Sys2Proof.Machine

/-! ### What a draw does to the display and to VF -/

section Draw
variable (s : State) (x y : RegIdx) (n : Nibble)

/-- The pixels of the sprite that DRW draws in `s` (20_memory.md R41, R42). -/
def drawnPixels : List (Fin 32 × Fin 64) :=
  spritePixels s.cfg.drawEdge (drawOrigin s x y).1 (drawOrigin s x y).2 (spriteAt s n)

/-- The state DRW answers in bounds (43_display_input_timers.md R102). -/
def drawn : State :=
  retired (writeFlag
    { s with disp := (dispDraw s.cfg.drawEdge s.disp (drawOrigin s x y).1 (drawOrigin s x y).2 (spriteAt s n)).1 }
    (dispDraw s.cfg.drawEdge s.disp (drawOrigin s x y).1 (drawOrigin s x y).2 (spriteAt s n)).2) .advance

theorem exec_draw_of_inBounds (h : inBounds s.I.toNat n.toNat) : exec (.draw x y n) s = .next (drawn s x y n) :=
  execDraw_of_inBounds s x y n h

/-- A sprite of at most 15 rows fits the display without meeting itself. -/
theorem spriteAt_length_le : (spriteAt s n).length ≤ 32 := by
  rw [spriteAt_length]
  have := n.isLt
  omega

theorem pix_drawn (r : Fin 32) (c : Fin 64) :
    pix (drawn s x y n).disp r c = (pix s.disp r c ^^ decide ((r, c) ∈ drawnPixels s x y n)) :=
  (dispDraw_spec _ _ _ _ _ (spriteAt_length_le s n)).1 r c

theorem readReg_drawn_VF :
    readReg (drawn s x y n) VF = flagByte ((drawnPixels s x y n).any fun p => pix s.disp p.1 p.2) := by
  rw [drawn, readReg_retired, readReg_writeFlag_VF, (dispDraw_spec _ _ _ _ _ (spriteAt_length_le s n)).2]
  rfl

/-- A pixel changes exactly when the sprite is drawn on it. -/
theorem pix_drawn_ne_iff {r : Fin 32} {c : Fin 64} :
    pix (drawn s x y n).disp r c ≠ pix s.disp r c ↔ (r, c) ∈ drawnPixels s x y n := by
  rw [pix_drawn]
  by_cases hmem : (r, c) ∈ drawnPixels s x y n <;> simp [hmem]

/-- VF is 1 exactly when one of the sprite's pixels was 1. -/
theorem readReg_drawn_VF_eq_one_iff :
    readReg (drawn s x y n) VF = 1#8 ↔ ∃ r c, pix s.disp r c = true ∧ (r, c) ∈ drawnPixels s x y n := by
  rw [readReg_drawn_VF, flagByte_eq_one_iff, List.any_eq_true, Prod.exists]
  simp only [and_comm]

theorem drawn_advances_and_keeps_rest :
    PcAfter 2 s (drawn s x y n) ∧ RegsUnchanged [VF] s (drawn s x y n) ∧ Unchanged [.display] s (drawn s x y n) :=
  ⟨pcAfter_advance s _ rfl, regsUnchanged_writeReg s _ _ VF _ rfl,
    unchanged_retired _ (unchanged_writeReg VF _ (unchanged_writeDisplay s _))⟩

end Draw

/-- Equal memory, I, parameters and coordinates draw the same pixels. -/
theorem drawnPixels_congr {s u : State} {x y : RegIdx} (n : Nibble) (hmem : u.mem = s.mem) (hI : u.I = s.I)
    (hcfg : u.cfg = s.cfg) (hx : readReg u x = readReg s x) (hy : readReg u y = readReg s y) :
    drawnPixels u x y n = drawnPixels s x y n := by
  simp only [drawnPixels, drawOrigin, spriteAt, hmem, hI, hcfg, hx, hy]

/-! ### The key wait -/

theorem key_setWidth_toNat (k : Key) : (k.setWidth 8).toNat = k.toNat := by
  have := k.isLt
  rw [BitVec.toNat_setWidth]
  omega

/-! ### The statements -/

/-- Settles O31: in bounds the sprite's pixels are flipped and compared with the old display, otherwise the fault is
raised. -/
theorem drawFlipsExactlyTheCoveredPixels : Obligations.DrawFlipsExactlyTheCoveredPixels := by
  intro x y n s
  refine ⟨fun hin => ⟨_, exec_draw_of_inBounds s x y n hin, ?_⟩, fun hout => ?_⟩
  · rintro sprite rfl row col hrow hcol
    rw [← drawOrigin_row] at hrow
    rw [← drawOrigin_col] at hcol
    subst hrow hcol
    simp only [covers_iff_mem]
    refine ⟨fun r c => pix_drawn_ne_iff s x y n, ?_, readReg_drawn_VF_eq_one_iff s x y n,
      drawn_advances_and_keeps_rest s x y n⟩
    rw [readReg_drawn_VF]
    exact (flagByte_zero_or_one _).symm
  · exact exists_faultedBy (execDraw_of_outOfBounds s x y n (not_inBounds_of_lt hout))

/-- Settles O32: both draws flip the same pixels, so the second finds set exactly those the first one set. -/
theorem drawTwiceRestoresTheDisplay : Obligations.DrawTwiceRestoresTheDisplay := by
  intro x y n s t u hin ht hdisp hmem hI hcfg hx hy
  obtain rfl : drawn s x y n = t := by
    rw [exec_draw_of_inBounds s x y n hin] at ht
    exact Host.Outcome.next.inj ht
  have hinU : inBounds u.I.toNat n.toNat := by rwa [hI]
  have hpixels := drawnPixels_congr n hmem hI hcfg hx hy
  have hcollides : readReg (drawn u x y n) VF = 1#8 ↔
      ∃ r c, pix s.disp r c = false ∧ pix (drawn s x y n).disp r c = true := by
    rw [readReg_drawn_VF_eq_one_iff, hpixels, hdisp]
    refine exists_congr fun r => exists_congr fun c => ?_
    rw [← pix_drawn_ne_iff]
    cases pix s.disp r c <;> cases pix (drawn s x y n).disp r c <;> simp
  refine ⟨_, exec_draw_of_inBounds u x y n hinU, fun r c => ?_, hcollides, fun hblank => ?_⟩
  · rw [pix_drawn, hpixels, hdisp, pix_drawn, Bool.xor_assoc, Bool.xor_self, Bool.xor_false]
  · rw [hcollides]
    simp [hblank]

/-- Settles O35: the latch holds a key, or it holds none. -/
theorem waitKeyTakesTheKeyOrSuspends : Obligations.WaitKeyTakesTheKeyOrSuspends := by
  intro x s
  constructor
  · intro k hk
    refine ⟨_, execWaitKey_of_some s x hk, ?_, hk, writeReg_advances_and_keeps_rest s x _⟩
    rw [readReg_retired, readReg_writeReg_same, key_setWidth_toNat]
  · intro hk
    exact ⟨_, execWaitKey_of_none s x hk, rfl, rfl, regsUnchanged_retired s s _ rfl,
      unchanged_retired _ (unchanged_refl [] s)⟩

end Sys2Proof.Machine
end

section
/-! SUPPORT. Proofs of the step statements (40_control.md section 1, 60_exceptions.md): which of its cases a call of the
step is, and how an instruction ends. -/

namespace Sys2Proof.Machine

/-! ### The cases of a step -/

/-- The word of the two bytes at pc is the word a step fetches (20_memory.md R32). -/
theorem fetch_eq_some_of_toNat {m : Memory} {pc w : Word} (hin : pc.toNat + 2 ≤ 4096)
    (hw : w.toNat = (m.readByte pc.toNat).toNat * 256 + (m.readByte (pc.toNat + 1)).toNat) : fetch m pc = some w := by
  refine fetch_eq_some_iff.2 ⟨hin, BitVec.eq_of_toNat_eq ?_⟩
  rw [hw, bigEndian_toNat]

theorem toNat_of_fetch_eq_some {m : Memory} {pc w : Word} (hw : fetch m pc = some w) :
    pc.toNat + 2 ≤ 4096 ∧
      w.toNat = (m.readByte pc.toNat).toNat * 256 + (m.readByte (pc.toNat + 1)).toNat := by
  obtain ⟨hin, rfl⟩ := fetch_eq_some_iff.1 hw
  exact ⟨hin, bigEndian_toNat _ _⟩

theorem step_of_decode_error {s : State} {w : Word} {e : DecodeFailure} (hrun : s.status = .running)
    (hw : fetch s.mem s.pc = some w) (he : decode w = .error e) :
    step s = .next (skipped s (.skippedDecodeError w)) := by
  simp only [step_of_running hrun, hw, he]
  rfl

theorem step_of_fetch_none {s : State} (hrun : s.status = .running) (hw : fetch s.mem s.pc = none) :
    step s = fetchFault s := by
  simp only [step_of_running hrun, hw]

/-! ### How an instruction ends -/

/-- Every instruction answers a next state. -/
theorem exists_exec_eq_next (i : Instr) (s : State) : ∃ t, exec i s = .next t := by
  obtain ⟨_, _, _, h⟩ | ⟨_, _, h⟩ | ⟨_, _, _, _, h, _⟩ := exec_cases i s
  · exact ⟨_, h⟩
  · exact ⟨_, h⟩
  · exact ⟨_, h⟩

/-- An instruction of family 5 or 9 raises no fault, so the word in a fault's record is the decoded one. -/
theorem encode_of_decode_of_raises {w : Word} {i : Instr} {s : State} {code : FaultCode} (hdec : decode w = .ok i)
    (hraise : raises i s = some code) : encode i = w := by
  obtain ⟨-, rfl⟩ | ⟨-, rfl⟩ | ⟨-, -, -, henc⟩ := decode_ok_cases hdec
  · cases hraise
  · cases hraise
  · exact henc

/-! ### The statements -/

/-- Settles O37: the two bytes at pc are the fetched word. -/
theorem stepRunsTheDecodedInstruction : Obligations.StepRunsTheDecodedInstruction := by
  intro s w i hrun hin hw hdec
  exact step_of_decode hrun (fetch_eq_some_of_toNat hin hw) hdec

/-- Settles O38: the skip of R110 is the only thing the step does. -/
theorem undecodableWordIsSkipped : Obligations.UndecodableWordIsSkipped := by
  intro s w e hrun hin hw he
  obtain ⟨hpc, hregs, hrest⟩ := skipped_advances_and_keeps_rest s (.skippedDecodeError w)
  exact ⟨_, step_of_decode_error hrun (fetch_eq_some_of_toNat hin hw) he, hpc (by omega), hregs, hrest, hrun, rfl⟩

/-- Settles O39: the fetch's bound check fails before anything is decoded. -/
theorem fetchPastMemoryFaults : Obligations.FetchPastMemoryFaults := by
  intro s hrun hout
  have hfetch := step_of_fetch_none hrun (fetch_eq_none_iff.2 (not_inBounds_of_lt hout))
  exact ⟨_, hfetch, rfl, rfl, regsUnchanged_faulted s _ _ _, unchanged_faulted s _ _ _⟩

/-- Settles O40: the status is tested before anything is fetched. -/
theorem faultedEngineTakesNoStep : Obligations.FaultedEngineTakesNoStep :=
  fun _ hfaulted => step_of_faulted hfaulted

/-- Settles O41: each of the step's cases is a next state. -/
theorem stepAlwaysAnswersANextState : Obligations.StepAlwaysAnswersANextState := by
  intro s
  obtain ⟨_, h⟩ | ⟨_, _, h⟩ | ⟨_, _, _, _, _, h⟩ | ⟨_, i, _, _, _, h⟩ := step_cases s
  · exact ⟨s, h⟩
  · exact ⟨_, h⟩
  · exact ⟨_, h⟩
  · rw [h]
    exact exists_exec_eq_next i s

/-- Settles O42: the three endings of an instruction against its fault condition. -/
theorem faultEnteredExactlyOnItsCondition : Obligations.FaultEnteredExactlyOnItsCondition := by
  intro i s hrun
  obtain ⟨code, hraise, -, hexec⟩ | ⟨hnone, -, hexec⟩ | ⟨hnone, -, s', e, hexec, hstatus, -⟩ := exec_cases i s
  · refine ⟨_, hexec, fun code' hcode => ?_, fun hnone => by simp [hraise] at hnone⟩
    obtain rfl : code = code' := Option.some.inj (hraise.symm.trans hcode)
    rfl
  · exact ⟨_, hexec, fun code hcode => by simp [hnone] at hcode, fun _ => hrun⟩
  · exact ⟨_, hexec, fun code hcode => by simp [hnone] at hcode, fun _ => hstatus.trans hrun⟩

/-- Settles O43: only an instruction that raises its fault makes a record with a word, and that word was fetched. -/
theorem faultRecordNamesTheFetchedWord : Obligations.FaultRecordNamesTheFetchedWord := by
  intro s t code fpc w hrun hstep hrecord
  obtain ⟨hnot, _⟩ | ⟨_, _, h⟩ | ⟨_, _, _, _, _, h⟩ | ⟨w', i, _, hfetch, hdec, h⟩ := step_cases s
  · exact absurd hrun hnot
  · cases h.symm.trans hstep
    cases hrecord
  · cases h.symm.trans hstep
    cases hrun.symm.trans hrecord
  · obtain ⟨code', hraise, -, hexec⟩ | ⟨-, -, hexec⟩ | ⟨-, -, s', e, hexec, hstatus, -⟩ := exec_cases i s
    · cases (h.trans hexec).symm.trans hstep
      cases hrecord
      rw [encode_of_decode_of_raises hdec hraise]
      exact ⟨rfl, rfl, (toNat_of_fetch_eq_some hfetch).2⟩
    · cases (h.trans hexec).symm.trans hstep
      cases hrun.symm.trans hrecord
    · cases (h.trans hexec).symm.trans hstep
      cases (hstatus.trans hrun).symm.trans hrecord

/-- Settles O44: the outcome is that of the ending. -/
theorem outcomeTellsHowTheInstructionEnded : Obligations.OutcomeTellsHowTheInstructionEnded := by
  intro i s
  obtain ⟨code, hraise, hsup, hexec⟩ | ⟨hnone, hun, hexec⟩ | ⟨hnone, hsup, s', e, hexec, -, -, -, -, houtcome⟩ :=
    exec_cases i s
  · refine ⟨_, hexec, fun hun => by simp [hsup] at hun, fun _ _ => rfl, ?_, fun _ hnone => by simp [hraise] at hnone⟩
    rintro ⟨x, rfl⟩
    cases hraise
  · refine ⟨_, hexec, fun _ => rfl, fun hsup => by simp [hun] at hsup, ?_, fun hsup => by simp [hun] at hsup⟩
    rintro ⟨x, rfl⟩
    cases hun
  · refine ⟨_, hexec, fun hun => by simp [hsup] at hun, fun _ hraise => absurd hnone hraise, fun hwait hkey => ?_,
      fun _ _ hkey => ?_⟩
    · rw [retired_outcome, houtcome, if_pos ⟨hwait, hkey⟩]
    · rw [retired_outcome, houtcome, if_neg fun ⟨hwait, hnokey⟩ => hkey hwait hnokey]

/-- Settles O45: after a fetch pc has twelve bits, so the jump's target is pc itself. -/
theorem selfJumpChangesNothing : Obligations.SelfJumpChangesNothing := by
  intro s hrun hself
  unfold State.atSelfJump at hself
  split at hself
  · cases hself
  · next w hfetch =>
    have hdec := of_decide_eq_true hself
    have htarget : zextAddr (s.pc.setWidth 12) = s.pc := by
      have hin := (toNat_of_fetch_eq_some hfetch).1
      apply BitVec.eq_of_toNat_eq
      rw [zextAddr_toNat, BitVec.toNat_setWidth]
      omega
    rw [step_of_decode hrun hfetch hdec, exec_jump, htarget]
    rfl

end Sys2Proof.Machine
end

section
/-! SUPPORT. Proofs of the rules of the whole machine (10_state.md sections 2, 11 and 12): what an instruction writes,
and what no step writes. -/

namespace Sys2Proof.Machine

/-! ### The written registers and parts -/

/-- A register outside the block of LD Vx, [I] is above x. -/
theorem lt_of_notMem_regsWritten_loadRegs {x r : RegIdx} (hr : r ∉ regsWritten (.loadRegs x)) : x.toNat < r.toNat := by
  by_contra hle
  refine hr (List.mem_map.2 ⟨r.toNat, List.mem_range.2 ?_, ?_⟩)
  · rw [blockLength]
    omega
  · rw [BitVec.ofNat_toNat, BitVec.setWidth_eq]

/-- What LD [I], Vx and LD Vx, [I] may write beside their block: I, where INDEX_INCREMENT holds. -/
theorem unchanged_bumpIndex_of_cfg {ws : List Part} {s s' : State} (x : RegIdx) (hcfg : s'.cfg = s.cfg)
    (h : Unchanged ws s s') :
    Unchanged (if s.cfg.indexIncrement then ws ++ [.index] else ws) s (bumpIndex x s') := by
  refine unchanged_bumpIndex x (fun hinc => ?_) (h.mono ?_)
  · rw [← hcfg, hinc]
    simp
  · split <;> simp

/-- An instruction that raises no fault writes what the register access table lists for it (10_state.md R29). -/
theorem exec_writes_only_listed {i : Instr} {s : State} (hnone : raises i s = none) :
    ∃ t, exec i s = .next t ∧ RegsUnchanged (regsWritten i) s t ∧ Unchanged (partsWritten s.cfg i) s t := by
  cases i
  case loadImm x kk => exact ⟨_, rfl, (writeReg_advances_and_keeps_rest s x _).2⟩
  case loadReg x y | or x y | and x y | xor x y => exact ⟨_, rfl, (writeReg_advances_and_keeps_rest s x _).2⟩
  case getDelay x => exact ⟨_, rfl, (writeReg_advances_and_keeps_rest s x _).2⟩
  case addImm x _ | addReg x _ | sub x _ | subN x _ | shiftRight x _ | shiftLeft x _ =>
    exact ⟨_, rfl, regsUnchanged_writeResult s _ x _ _,
      unchanged_retired _ (unchanged_writeResult x _ _ (unchanged_refl [] s))⟩
  case random x kk =>
    exact ⟨_, rfl, regsUnchanged_writeReg s _ _ x _ rfl,
      unchanged_retired _ (unchanged_writeReg x _ (unchanged_writeRng s _))⟩
  case jump | skipEqImm | skipNeImm | skipEqReg | skipNeReg | jumpOffset | skipKey | skipNotKey =>
    exact ⟨_, rfl, regsUnchanged_retired s s _ rfl, unchanged_retired _ (unchanged_refl [] s)⟩
  case loadIndex | addIndex => exact ⟨_, rfl, (writeIndex_advances_and_keeps_rest s _).2⟩
  case cls =>
    exact ⟨_, exec_cls s, regsUnchanged_retired s _ _ rfl, unchanged_retired _ (unchanged_writeDisplay s _)⟩
  case setDelay x =>
    exact ⟨_, exec_setDelay x s, regsUnchanged_retired s _ _ rfl, unchanged_retired _ (unchanged_writeDelay s _)⟩
  case setSound x =>
    exact ⟨_, exec_setSound x s, regsUnchanged_retired s _ _ rfl, unchanged_retired _ (unchanged_writeSound s _)⟩
  case ret =>
    have hne : s.stack ≠ [] := by simpa [raises] using hnone
    obtain ⟨rest, a, hstack⟩ := (List.eq_nil_or_concat s.stack).resolve_left hne
    rw [List.concat_eq_append] at hstack
    exact ⟨_, execRet_of_append s hstack, writeStack_keeps_rest s rest _⟩
  case call nnn =>
    have hroom : s.stack.length ≠ s.cfg.stackDepth := by simpa [raises] using hnone
    exact ⟨_, execCall_of_room s nnn hroom, writeStack_keeps_rest s _ _⟩
  case draw x y n =>
    have hin : s.I.toNat + n.toNat ≤ 4096 := by simpa [raises] using hnone
    exact ⟨_, exec_draw_of_inBounds s x y n hin, (drawn_advances_and_keeps_rest s x y n).2⟩
  case storeBcd x =>
    have hin : s.I.toNat + 3 ≤ 4096 := by simpa [raises] using hnone
    exact ⟨_, execStoreBcd_of_inBounds s x hin, regsUnchanged_retired s _ _ rfl,
      unchanged_retired _ (unchanged_writeMemory s _)⟩
  case storeRegs x =>
    have hin : s.I.toNat + x.toNat + 1 ≤ 4096 := by simpa [raises] using hnone
    exact ⟨_, execStoreRegs_of_inBounds s x hin, regsUnchanged_retired s _ _ (bumpIndex_V ..),
      unchanged_retired _ (unchanged_bumpIndex_of_cfg x rfl (unchanged_writeMemory s _))⟩
  case loadRegs x =>
    have hin : s.I.toNat + x.toNat + 1 ≤ 4096 := by simpa [raises] using hnone
    refine ⟨_, execLoadRegs_of_inBounds s x hin, fun r hr => ?_,
      unchanged_retired _ (unchanged_bumpIndex_of_cfg x rfl { unchanged_refl [] s with })⟩
    rw [readReg_loaded_block, if_neg (Nat.not_le.2 (lt_of_notMem_regsWritten_loadRegs hr))]
  case waitKey x =>
    rcases hkey : s.key with _ | k
    · exact ⟨_, execWaitKey_of_none s x hkey, fun r _ => rfl, unchanged_retired _ (unchanged_refl [] s)⟩
    · exact ⟨_, execWaitKey_of_some s x hkey, (writeReg_advances_and_keeps_rest s x _).2⟩
  -- The unsupported rows are skipped.
  all_goals exact ⟨_, rfl, (skipped_advances_and_keeps_rest s _).2⟩

/-- A flag writer that raises no fault leaves a flag value in VF (R15). -/
theorem flagWriter_leaves_flag {i : Instr} {s : State} (hflag : flagWriter i = true) (hnone : raises i s = none) :
    ∃ t f, exec i s = .next t ∧ readReg t VF = flagByte f := by
  cases i
  case addImm x _ | addReg x _ | sub x _ | subN x _ | shiftRight x _ | shiftLeft x _ =>
    exact ⟨_, _, rfl, readReg_writeResult_VF ..⟩
  case draw x y n =>
    have hin : s.I.toNat + n.toNat ≤ 4096 := by simpa [raises] using hnone
    exact ⟨_, _, exec_draw_of_inBounds s x y n hin, readReg_drawn_VF s x y n⟩
  all_goals cases hflag

/-- Two answers of one call are one state. -/
theorem next_unique {a : Answer} {t u : State} (ht : a = .next t) (hu : a = .next u) : t = u :=
  Host.Outcome.next.inj (ht.symm.trans hu)

/-! ### The latch and the parameters -/

theorem exec_keeps_latch_and_parameters {i : Instr} {s t : State} (hexec : exec i s = .next t) :
    t.key = s.key ∧ t.cfg = s.cfg := by
  obtain ⟨_, _, _, h⟩ | ⟨_, _, h⟩ | ⟨_, _, s', e, h, _, _, hkey, hcfg, _⟩ := exec_cases i s
  · obtain rfl := next_unique hexec h
    exact ⟨rfl, rfl⟩
  · obtain rfl := next_unique hexec h
    exact ⟨rfl, rfl⟩
  · obtain rfl := next_unique hexec h
    exact ⟨hkey, hcfg⟩

/-! ### The statements -/

/-- Settles O46: an instruction answers one state, the one whose writes are listed. -/
theorem onlyTheListedStateIsWritten : Obligations.OnlyTheListedStateIsWritten := by
  intro i s t hexec hnone
  obtain ⟨u, hu, hkept⟩ := exec_writes_only_listed hnone
  obtain rfl := next_unique hexec hu
  exact hkept

/-- Settles O47: an instruction that writes no flag changes VF only as a listed register, and a fault changes no
register. -/
theorem onlyFlagWritersChangeVF : Obligations.OnlyFlagWritersChangeVF := by
  intro i s t hexec
  constructor
  · intro hflag hnone
    obtain ⟨u, f, hu, hVF⟩ := flagWriter_leaves_flag hflag hnone
    obtain rfl := next_unique hexec hu
    rw [hVF]
    exact flagByte_zero_or_one f
  · intro _ hVF
    obtain ⟨code, _, _, hraise⟩ | ⟨hnone, _⟩ | ⟨hnone, _⟩ := exec_cases i s
    · obtain rfl := next_unique hexec hraise
      rfl
    all_goals
      obtain ⟨hregs, -⟩ := onlyTheListedStateIsWritten i s t hexec hnone
      exact hregs VF hVF

/-- Settles O48: each of the step's cases keeps both. -/
theorem stepKeepsLatchAndParameters : Obligations.StepKeepsLatchAndParameters := by
  intro s t hstep
  obtain ⟨_, h⟩ | ⟨_, _, h⟩ | ⟨_, _, _, _, _, h⟩ | ⟨_, i, _, _, _, h⟩ := step_cases s
  · obtain rfl := next_unique hstep h
    exact ⟨rfl, rfl⟩
  · obtain rfl := next_unique hstep h
    exact ⟨rfl, rfl⟩
  · obtain rfl := next_unique hstep h
    exact ⟨rfl, rfl⟩
  · exact exec_keeps_latch_and_parameters (h.symm.trans hstep)

end Sys2Proof.Machine
end

section
/-! SUPPORT. Proofs of what no step reads (10_state.md sections 1, 5 and 10): the sound timer, the PRNG but for RND, and
the recorded outcome. The three are one argument: a meaning that neither writes ST nor draws commutes with other values in
all three fields. -/

namespace Sys2Proof.Machine

/-- `s` with other values in the three fields. -/
def withHidden (s : State) (z : Byte) (g : Rng) (o : Option StepOutcome) : State :=
  { s with ST := z, rng := g, outcome := o }

/-- `f` answers a next state from `s`, and from `s` with other values in the three fields the same state with the new ST
and PRNG state in it; the outcome is the one `f` records. -/
def IgnoresHidden (f : State → Answer) (s : State) : Prop :=
  ∃ t, f s = .next t ∧ t.ST = s.ST ∧ t.rng = s.rng ∧
    ∀ z g o, f (withHidden s z g o) = .next { t with ST := z, rng := g }

section Hidden
variable (s : State) (x : RegIdx) (z : Byte) (g : Rng) (o : Option StepOutcome)

theorem bumpIndex_withHidden : bumpIndex x (withHidden s z g o) = withHidden (bumpIndex x s) z g o := by
  unfold bumpIndex
  split <;> simp_all [withHidden]

theorem retired_bumpIndex_withHidden (e : Effect) :
    retired (bumpIndex x (withHidden s z g o)) e = { retired (bumpIndex x s) e with ST := z, rng := g } := by
  rw [bumpIndex_withHidden]
  rfl

end Hidden

/-- Every meaning but those of RND and LD ST, Vx. -/
theorem exec_ignoresHidden {i : Instr} (hrandom : ∀ x kk, i ≠ .random x kk) (hsound : ∀ x, i ≠ .setSound x)
    (s : State) : IgnoresHidden (exec i) s := by
  cases i
  case random x kk => exact absurd rfl (hrandom x kk)
  case setSound x => exact absurd rfl (hsound x)
  case ret =>
    obtain hempty | ⟨rest, a, hstack⟩ := List.eq_nil_or_concat s.stack
    · exact ⟨_, execRet_of_empty s hempty, rfl, rfl, fun z g o => execRet_of_empty (withHidden s z g o) hempty⟩
    · rw [List.concat_eq_append] at hstack
      exact ⟨_, execRet_of_append s hstack, rfl, rfl, fun z g o => execRet_of_append (withHidden s z g o) hstack⟩
  case call nnn =>
    by_cases hfull : s.stack.length = s.cfg.stackDepth
    · exact ⟨_, execCall_of_full s nnn hfull, rfl, rfl, fun z g o => execCall_of_full (withHidden s z g o) nnn hfull⟩
    · exact ⟨_, execCall_of_room s nnn hfull, rfl, rfl, fun z g o => execCall_of_room (withHidden s z g o) nnn hfull⟩
  case draw x y n =>
    by_cases hin : inBounds s.I.toNat n.toNat
    · exact ⟨_, execDraw_of_inBounds s x y n hin, rfl, rfl,
        fun z g o => execDraw_of_inBounds (withHidden s z g o) x y n hin⟩
    · exact ⟨_, execDraw_of_outOfBounds s x y n hin, rfl, rfl,
        fun z g o => execDraw_of_outOfBounds (withHidden s z g o) x y n hin⟩
  case storeBcd x =>
    by_cases hin : inBounds s.I.toNat 3
    · exact ⟨_, execStoreBcd_of_inBounds s x hin, rfl, rfl,
        fun z g o => execStoreBcd_of_inBounds (withHidden s z g o) x hin⟩
    · exact ⟨_, execStoreBcd_of_outOfBounds s x hin, rfl, rfl,
        fun z g o => execStoreBcd_of_outOfBounds (withHidden s z g o) x hin⟩
  case storeRegs x =>
    by_cases hin : inBounds s.I.toNat (blockLength x)
    · refine ⟨_, execStoreRegs_of_inBounds s x hin, bumpIndex_ST .., bumpIndex_rng .., fun z g o => ?_⟩
      exact (execStoreRegs_of_inBounds (withHidden s z g o) x hin).trans (congrArg _
        (retired_bumpIndex_withHidden { s with mem := s.mem.writeBytes s.I.toNat (regBlock s x) } x z g o _))
    · exact ⟨_, execStoreRegs_of_outOfBounds s x hin, rfl, rfl,
        fun z g o => execStoreRegs_of_outOfBounds (withHidden s z g o) x hin⟩
  case loadRegs x =>
    by_cases hin : inBounds s.I.toNat (blockLength x)
    · refine ⟨_, execLoadRegs_of_inBounds s x hin, bumpIndex_ST .., bumpIndex_rng .., fun z g o => ?_⟩
      exact (execLoadRegs_of_inBounds (withHidden s z g o) x hin).trans (congrArg _
        (retired_bumpIndex_withHidden
          { s with V := loadBlock s.V 0 ((List.range (blockLength x)).map fun j => s.mem.readByte (s.I.toNat + j)) }
          x z g o _))
    · exact ⟨_, execLoadRegs_of_outOfBounds s x hin, rfl, rfl,
        fun z g o => execLoadRegs_of_outOfBounds (withHidden s z g o) x hin⟩
  case waitKey x =>
    rcases hkey : s.key with _ | k
    · exact ⟨_, execWaitKey_of_none s x hkey, rfl, rfl, fun z g o => execWaitKey_of_none (withHidden s z g o) x hkey⟩
    · exact ⟨_, execWaitKey_of_some s x hkey, rfl, rfl, fun z g o => execWaitKey_of_some (withHidden s z g o) x hkey⟩
  -- The meanings with one ending.
  all_goals exact ⟨_, rfl, rfl, rfl, fun _ _ _ => rfl⟩

/-- What a step of a running engine can be, as to the three fields. -/
theorem step_hidden_cases {s : State} (hrun : s.status = .running) :
    IgnoresHidden step s ∨
    (∃ x, ∀ z g o, step (withHidden s z g o) = exec (.setSound x) (withHidden s z g o)) ∨
    (∃ w x kk, fetch s.mem s.pc = some w ∧ decode w = .ok (.random x kk) ∧
      ∀ z g o, step (withHidden s z g o) = exec (.random x kk) (withHidden s z g o)) := by
  obtain ⟨hnot, _⟩ | ⟨_, hw, h⟩ | ⟨w, e, _, hw, he, h⟩ | ⟨w, i, _, hw, hi, h⟩ := step_cases s
  · exact absurd hrun hnot
  · exact .inl ⟨_, h, rfl, rfl, fun z g o => step_of_fetch_none (s := withHidden s z g o) hrun hw⟩
  · exact .inl ⟨_, h, rfl, rfl, fun z g o => step_of_decode_error (s := withHidden s z g o) hrun hw he⟩
  · have hstep z g o : step (withHidden s z g o) = exec i (withHidden s z g o) := step_of_decode hrun hw hi
    by_cases hrandom : ∃ x kk, i = .random x kk
    · obtain ⟨x, kk, rfl⟩ := hrandom
      exact .inr (.inr ⟨w, x, kk, hw, hi, hstep⟩)
    · by_cases hsound : ∃ x, i = .setSound x
      · obtain ⟨x, rfl⟩ := hsound
        exact .inr (.inl ⟨x, hstep⟩)
      · obtain ⟨t, ht, hST, hrng, hother⟩ := exec_ignoresHidden (fun x kk hi => hrandom ⟨x, kk, hi⟩)
          (fun x hi => hsound ⟨x, hi⟩) s
        exact .inl ⟨t, h.trans ht, hST, hrng, fun z g o => (hstep z g o).trans (hother z g o)⟩

/-! ### The statements -/

/-- Settles O49: LD ST, Vx writes the same value over either ST; every other step leaves ST alone. -/
theorem noStepReadsTheSoundTimer : Obligations.NoStepReadsTheSoundTimer := by
  intro s t z hrun hstep
  obtain ⟨t', ht, hST, hrng, hother⟩ | ⟨x, h⟩ | ⟨_, x, kk, _, _, h⟩ := step_hidden_cases hrun
  · obtain rfl := next_unique ht hstep
    refine ⟨_, hother z s.rng s.outcome, ?_, .inr ⟨rfl, hST⟩⟩
    rw [← hrng]
  · obtain rfl := next_unique ((h s.ST s.rng s.outcome).trans (exec_setSound x _)) hstep
    exact ⟨_, (h z s.rng s.outcome).trans (exec_setSound x _), rfl, .inl rfl⟩
  · obtain rfl := next_unique ((h s.ST s.rng s.outcome).trans (exec_random x kk _)) hstep
    exact ⟨_, (h z s.rng s.outcome).trans (exec_random x kk _), rfl, .inr ⟨rfl, rfl⟩⟩

/-- Settles O50: a step that runs no RND does not draw. -/
theorem onlyRandomUsesThePrng : Obligations.OnlyRandomUsesThePrng := by
  intro s t g hrun hstep hnotRandom
  obtain ⟨t', ht, hST, hrng, hother⟩ | ⟨x, h⟩ | ⟨w, x, kk, hw, hi, _⟩ := step_hidden_cases hrun
  · obtain rfl := next_unique ht hstep
    refine ⟨hrng, _, hother s.ST g s.outcome, ?_⟩
    rw [← hST]
  · obtain rfl := next_unique ((h s.ST s.rng s.outcome).trans (exec_setSound x _)) hstep
    exact ⟨rfl, _, (h s.ST g s.outcome).trans (exec_setSound x _), rfl⟩
  · exact absurd hi (hnotRandom w x kk hw)

/-- Settles O51: every step records its own outcome. -/
theorem noStepReadsTheLastOutcome : Obligations.NoStepReadsTheLastOutcome := by
  intro s t o hrun hstep
  obtain ⟨t', ht, hST, hrng, hother⟩ | ⟨x, h⟩ | ⟨_, x, kk, _, _, h⟩ := step_hidden_cases hrun
  · obtain rfl := next_unique ht hstep
    refine (hother s.ST s.rng o).trans ?_
    rw [← hST, ← hrng]
  · exact (h s.ST s.rng o).trans ((h s.ST s.rng s.outcome).symm.trans hstep)
  · exact (h s.ST s.rng o).trans ((h s.ST s.rng s.outcome).symm.trans hstep)

end Sys2Proof.Machine
end

section
/-! SUPPORT. Proofs of the invariant statements (10_state.md sections 3 and 6, 40_control.md section 1): a step moves pc
and the call stack in one of four ways and keeps memory canonical, and so does every transaction of the host. -/

namespace Sys2Proof.Machine

/-! ### What an instruction does to pc, the call stack and memory -/

/-- The ways an instruction moves pc and the call stack (40_control.md R70 to R79). -/
inductive ControlStep (s t : State) : Prop where
  /-- The stack stays, and pc stays or advances by one or two words. -/
  | near (hstack : t.stack = s.stack) (hpc : t.pc = s.pc ∨ t.pc = s.pc + 2#16 ∨ t.pc = s.pc + 4#16)
  /-- The stack stays, and pc goes to a target of at most 0xFFF + 0xFF. -/
  | jump (hstack : t.stack = s.stack) (hpc : t.pc.toNat ≤ maxPc)
  /-- A call that finds room pushes the next address. -/
  | call (hroom : s.stack.length ≠ s.cfg.stackDepth) (hstack : t.stack = s.stack ++ [s.pc + 2#16])
      (hpc : t.pc.toNat ≤ maxPc)
  /-- A return pops pc. -/
  | ret (hstack : s.stack = t.stack ++ [t.pc])

theorem controlStep_skipIf (s : State) (f : Bool) : ControlStep s (retired s (skipIf f)) := by
  cases f
  · exact .near rfl (.inr (.inl rfl))
  · exact .near rfl (.inr (.inr rfl))

theorem zextAddr_le_maxPc (nnn : Addr12) : (zextAddr nnn).toNat ≤ maxPc := by
  have := nnn.isLt
  rw [zextAddr_toNat, maxPc]
  omega

theorem jumpOffset_target_le_maxPc (nnn : Addr12) (b : Byte) : (zextAddr nnn + zextByte b).toNat ≤ maxPc := by
  have := nnn.isLt
  have := b.isLt
  rw [jumpOffset_target_toNat, maxPc]
  omega

/-- What every instruction does to pc, the stack and the canonical form of memory. -/
theorem exec_controlStep (i : Instr) (s : State) :
    ∃ t, exec i s = .next t ∧ ControlStep s t ∧ (s.mem.wf = true → t.mem.wf = true) := by
  cases i
  case jump nnn => exact ⟨_, rfl, .jump rfl (zextAddr_le_maxPc nnn), id⟩
  case jumpOffset nnn => exact ⟨_, rfl, .jump rfl (jumpOffset_target_le_maxPc nnn _), id⟩
  case skipEqImm | skipNeImm | skipEqReg | skipNeReg | skipKey | skipNotKey =>
    exact ⟨_, rfl, controlStep_skipIf s _, id⟩
  case ret =>
    obtain hempty | ⟨rest, a, hstack⟩ := List.eq_nil_or_concat s.stack
    · exact ⟨_, execRet_of_empty s hempty, .near rfl (.inl rfl), id⟩
    · rw [List.concat_eq_append] at hstack
      exact ⟨_, execRet_of_append s hstack, .ret hstack, id⟩
  case call nnn =>
    by_cases hfull : s.stack.length = s.cfg.stackDepth
    · exact ⟨_, execCall_of_full s nnn hfull, .near rfl (.inl rfl), id⟩
    · exact ⟨_, execCall_of_room s nnn hfull, .call hfull rfl (zextAddr_le_maxPc nnn), id⟩
  case draw x y n =>
    by_cases hin : inBounds s.I.toNat n.toNat
    · exact ⟨_, execDraw_of_inBounds s x y n hin, .near rfl (.inr (.inl rfl)), id⟩
    · exact ⟨_, execDraw_of_outOfBounds s x y n hin, .near rfl (.inl rfl), id⟩
  case storeBcd x =>
    by_cases hin : inBounds s.I.toNat 3
    · exact ⟨_, execStoreBcd_of_inBounds s x hin, .near rfl (.inr (.inl rfl)), Memory.wf_writeBytes _ hin⟩
    · exact ⟨_, execStoreBcd_of_outOfBounds s x hin, .near rfl (.inl rfl), id⟩
  case storeRegs x =>
    by_cases hin : inBounds s.I.toNat (blockLength x)
    · refine ⟨_, execStoreRegs_of_inBounds s x hin, .near (bumpIndex_stack ..) (.inr (.inl ?_)), fun hm => ?_⟩
      · rw [retired_pc, bumpIndex_pc]
        rfl
      · rw [retired_mem, bumpIndex_mem]
        exact Memory.wf_writeBytes _ (by rwa [regBlock_length]) hm
    · exact ⟨_, execStoreRegs_of_outOfBounds s x hin, .near rfl (.inl rfl), id⟩
  case loadRegs x =>
    by_cases hin : inBounds s.I.toNat (blockLength x)
    · refine ⟨_, execLoadRegs_of_inBounds s x hin, .near (bumpIndex_stack ..) (.inr (.inl ?_)), fun hm => ?_⟩
      · rw [retired_pc, bumpIndex_pc]
        rfl
      · rwa [retired_mem, bumpIndex_mem]
    · exact ⟨_, execLoadRegs_of_outOfBounds s x hin, .near rfl (.inl rfl), id⟩
  case waitKey x =>
    rcases hkey : s.key with _ | k
    · exact ⟨_, execWaitKey_of_none s x hkey, .near rfl (.inl rfl), id⟩
    · exact ⟨_, execWaitKey_of_some s x hkey, .near rfl (.inr (.inl rfl)), id⟩
  -- The other instructions advance by 2 and write neither stack nor memory.
  all_goals exact ⟨_, rfl, .near rfl (.inr (.inl rfl)), id⟩

/-! ### The invariant under a step -/

/-- A step from a fetchable pc: the return address of a call is at most 0x1000, and so is what a return pops. -/
theorem Inv.of_controlStep {s t : State} (hinv : Inv s) (hfetched : s.pc.toNat + 2 ≤ 4096) (hcontrol : ControlStep s t)
    (hmem : t.mem.wf = true) (hcfg : t.cfg = s.cfg) : Inv t := by
  obtain ⟨-, hdepth, hreturns, -⟩ := hinv
  cases hcontrol with
  | near hstack hpc =>
    refine ⟨hmem, by rwa [hstack, hcfg], by rwa [hstack], ?_⟩
    have h2 := BitVec.toNat_add s.pc 2#16
    have h4 := BitVec.toNat_add s.pc 4#16
    simp only [BitVec.toNat_ofNat] at h2 h4
    rw [maxPc]
    obtain hpc | hpc | hpc := hpc <;> rw [hpc] <;> omega
  | jump hstack hpc => exact ⟨hmem, by rwa [hstack, hcfg], by rwa [hstack], hpc⟩
  | call hroom hstack hpc =>
    refine ⟨hmem, ?_, ?_, hpc⟩
    · rw [hstack, hcfg, List.length_append, List.length_singleton]
      omega
    · rw [hstack, List.forall_mem_append]
      refine ⟨hreturns, List.forall_mem_singleton.2 ?_⟩
      rw [BitVec.toNat_add, BitVec.toNat_ofNat, maxReturn]
      omega
  | ret hstack =>
    rw [hstack, List.length_append] at hdepth
    rw [hstack, List.forall_mem_append, List.forall_mem_singleton] at hreturns
    obtain ⟨hrest, htop⟩ := hreturns
    refine ⟨hmem, by rw [hcfg]; omega, hrest, ?_⟩
    rw [maxReturn] at htop
    rw [maxPc]
    omega

theorem inv_exec {i : Instr} {s t : State} (hinv : Inv s) (hfetched : s.pc.toNat + 2 ≤ 4096)
    (hexec : exec i s = .next t) : Inv t := by
  obtain ⟨u, hu, hcontrol, hmem⟩ := exec_controlStep i s
  obtain rfl := next_unique hexec hu
  exact hinv.of_controlStep hfetched hcontrol (hmem hinv.memCanonical) (exec_keeps_latch_and_parameters hexec).2

theorem inv_step {s t : State} (hinv : Inv s) (hstep : step s = .next t) : Inv t := by
  obtain ⟨_, h⟩ | ⟨_, _, h⟩ | ⟨_, _, _, hw, _, h⟩ | ⟨_, i, _, hw, _, h⟩ := step_cases s
  · obtain rfl := next_unique hstep h
    exact hinv
  · obtain rfl := next_unique hstep h
    exact { hinv with }
  · obtain rfl := next_unique hstep h
    exact hinv.of_controlStep (toNat_of_fetch_eq_some hw).1 (.near rfl (.inr (.inl rfl))) hinv.memCanonical rfl
  · exact inv_exec hinv (toNat_of_fetch_eq_some hw).1 (h.symm.trans hstep)

/-! ### The invariant under a transaction -/

theorem inv_resetWith (cfg : Config) (seed : Nat) : Inv (State.resetWith cfg seed) where
  memCanonical := rfl
  stackBounded := Nat.zero_le _
  returnsInside := List.forall_mem_nil _
  pcInside := (by decide : (0x200#16 : Word).toNat ≤ maxPc)

/-- The engine after a call of its step is the next state the step answers. -/
theorem step_eq_afterStep (s : State) : step s = .next s.afterStep := by
  obtain ⟨t, ht⟩ := stepAlwaysAnswersANextState s
  rw [State.afterStep, ht]

/-- A loaded ROM changes memory alone, by a write in bounds (70_reset_and_hazards.md R126). -/
theorem loadRom_eq_some {s t : State} {rom : List Byte} (hload : s.loadRom rom = some t) :
    ∃ mem, memWrite s.mem Config.romBase rom = some mem ∧ t = { s with mem := mem } := by
  unfold State.loadRom at hload
  split at hload
  · cases hload
  · next mem hwrite => exact ⟨mem, hwrite, (Option.some.inj hload).symm⟩

/-- A key press changes the latch alone (20_memory.md R44). -/
theorem press_eq_some {s t : State} {k : Nat} (hpress : s.press k = some t) : ∃ key, t = { s with key := key } := by
  unfold State.press at hpress
  split at hpress <;> cases hpress
  exact ⟨_, rfl⟩

/-- Every transaction keeps the invariant of the engine, in every phase (70_reset_and_hazards.md R129). -/
theorem inv_transact {h : Session} (tr : Transaction) (hinv : Inv h.engine) : Inv (transact tr h).1.engine := by
  cases tr with
  | reset seed => exact inv_resetWith _ seed
  | loadRom rom =>
    simp only [transact]
    split
    · split
      · next s hload =>
        obtain ⟨mem, hwrite, rfl⟩ := loadRom_eq_some hload
        exact { hinv with memCanonical := memWrite_wf hinv.memCanonical hwrite }
      · exact hinv
    · exact hinv
    · exact hinv
  | step =>
    simp only [transact]
    split
    · exact inv_step hinv (step_eq_afterStep _)
    · exact inv_step hinv (step_eq_afterStep _)
    · exact hinv
  | press k =>
    simp only [transact]
    split
    · next s hpress =>
      obtain ⟨key, rfl⟩ := press_eq_some hpress
      exact { hinv with }
    · exact hinv
  | release => exact { hinv with }
  | tickTimers => exact { hinv with }
  | read row col len =>
    simp only [transact]
    split <;> exact hinv
  | getTimers => exact hinv
  | getStatus => exact hinv

theorem inv_run {h : Session} (ts : List Transaction) (hinv : Inv h.engine) : Inv (Session.run ts h).engine := by
  induction ts generalizing h with
  | nil => exact hinv
  | cons t ts ih => exact ih (inv_transact t hinv)

/-! ### The statements -/

/-- Settles O52: by the cases of a step and, for an instruction, the ways it moves pc and the stack. -/
theorem everyStepKeepsTheInvariant : Obligations.EveryStepKeepsTheInvariant := fun _ _ hinv hstep => inv_step hinv hstep

/-- Settles O53: memory and the stack are empty after reset. -/
theorem resetMeetsTheInvariant : Obligations.ResetMeetsTheInvariant := ⟨inv_resetWith, inv_resetWith _ _⟩

/-- Settles O54: by induction on the list of transactions. -/
theorem everySessionKeepsTheInvariant : Obligations.EverySessionKeepsTheInvariant :=
  ⟨fun _ tr hinv => inv_transact tr hinv, fun _ ts hinv => inv_run ts hinv,
    fun cfg seed ts => inv_run (h := Session.boot cfg seed) ts (inv_resetWith cfg seed)⟩

end Sys2Proof.Machine
end

section
/-! SUPPORT. Proofs of the statements on reset and the host's transactions (70_reset_and_hazards.md, 20_memory.md
sections 5 and 6). -/

namespace Sys2Proof.Machine

/-! ### The transactions with more than one ending -/

section Transactions
variable (h : Session)

/-- 3584 bytes fill memory from 0x200 to its end (70_reset_and_hazards.md R126). -/
theorem loadRom_of_le {s : State} {rom : List Byte} (hlen : rom.length ≤ 3584) :
    s.loadRom rom = some { s with mem := s.mem.writeBytes 0x200 rom } := by
  have hin : inBounds Config.romBase rom.length := inBounds_of_le (by rw [Config.romBase]; omega)
  simp only [State.loadRom, memWrite_of_inBounds hin]
  rfl

theorem loadRom_of_gt {s : State} {rom : List Byte} (hlen : rom.length > 3584) : s.loadRom rom = none := by
  have hout : ¬ inBounds Config.romBase rom.length := not_inBounds_of_lt (by rw [Config.romBase]; omega)
  simp only [State.loadRom, memWrite_eq_none_iff.2 hout]

theorem transact_loadRom_of_some {s : State} {rom : List Byte} (hphase : h.phase = .fresh)
    (hload : h.engine.loadRom rom = some s) :
    transact (.loadRom rom) h = ({ engine := s, phase := .started }, .none) := by
  simp only [transact, hphase, hload]

theorem transact_loadRom_of_none {rom : List Byte} (hphase : h.phase = .fresh) (hload : h.engine.loadRom rom = none) :
    transact (.loadRom rom) h = ({ h with phase := .unstartable }, .refused) := by
  simp only [transact, hphase, hload]

theorem transact_step_of_unstartable (hphase : h.phase = .unstartable) : transact .step h = (h, .refused) := by
  simp only [transact, hphase]

theorem dispRead_of_le {d : Display} {row col len : Nat} (hin : row * 8 + col / 8 + len ≤ 256) :
    dispRead d row col len = some ((d.toList.drop (row * 8 + col / 8)).take len) := if_pos hin

theorem dispRead_of_gt {d : Display} {row col len : Nat} (hout : row * 8 + col / 8 + len > 256) :
    dispRead d row col len = none := if_neg (Nat.not_le.2 hout)

theorem transact_read_of_some {row col len : Nat} {bs : List Byte}
    (hread : dispRead h.engine.disp row col len = some bs) : transact (.read row col len) h = (h, .bytes bs) := by
  simp only [transact, hread]

theorem transact_read_of_none {row col len : Nat} (hread : dispRead h.engine.disp row col len = none) :
    transact (.read row col len) h = (h, .refused) := by
  simp only [transact, hread]

end Transactions

/-- A faulted engine's status survives every transaction but a reset (10_state.md R25, 70_reset_and_hazards.md R129). -/
theorem transact_keeps_faulted {h : Session} {tr : Transaction} (hfaulted : h.engine.status ≠ .running)
    (hnotReset : ∀ seed, tr ≠ .reset seed) : (transact tr h).1.engine.status = h.engine.status := by
  have hafter : h.engine.afterStep = h.engine := next_unique (step_eq_afterStep _) (step_of_faulted hfaulted)
  cases tr with
  | reset seed => exact absurd rfl (hnotReset seed)
  | loadRom rom =>
    simp only [transact]
    split
    · split
      · next s hload =>
        obtain ⟨mem, -, rfl⟩ := loadRom_eq_some hload
        rfl
      · rfl
    · rfl
    · rfl
  | step =>
    simp only [transact, hafter]
    split <;> rfl
  | press k =>
    simp only [transact]
    split
    · next s hpress =>
      obtain ⟨key, rfl⟩ := press_eq_some hpress
      rfl
    · rfl
  | release => rfl
  | tickTimers => rfl
  | read row col len =>
    simp only [transact]
    split <;> rfl
  | getTimers => rfl
  | getStatus => rfl

/-! ### Numbers behind the transactions -/

/-- One timer's decrement as a number (R130). -/
theorem tickTimer_toNat (b : Byte) : (tickTimer b).toNat = b.toNat - 1 := by
  have := b.isLt
  rw [tickTimer, BitVec.toNat_ofNat]
  omega

/-- The buffer byte and the bit of the pixel numbered `8 * k + b` in row-major order (20_memory.md R39). -/
theorem pix_eq_getLsbD {d : Display} {r : Fin 32} {c : Fin 64} {k b : Nat} (hk : k < 256) (hb : b < 8)
    (hpos : r.val * 64 + c.val = k * 8 + b) : pix d r c = d[k].getLsbD (7 - b) := by
  have hbyte : pixByte r c = k := by unfold pixByte; omega
  have hbit : pixBit c = 7 - b := by unfold pixBit; omega
  simp only [pix, hbyte, hbit]

/-! ### The statements -/

/-- Settles O55: each value is read off the reset state. -/
theorem resetLeavesTheListedValues : Obligations.ResetLeavesTheListedValues := by
  rintro cfg seed s rfl
  exact ⟨rfl, fun r => by simp [readReg, State.resetWith], rfl, rfl, rfl, rfl, fun a => rfl,
    pix_dispClear, rfl, rfl, rfl, rfl⟩

/-- Settles O56: a transaction that is no reset keeps the status of a faulted engine. -/
theorem onlyResetLeavesFaulted : Obligations.OnlyResetLeavesFaulted := by
  intro h tr hfaulted
  refine ⟨transact_keeps_faulted hfaulted, ?_⟩
  rintro ⟨seed, rfl⟩
  rfl

/-- Settles O57: the ROM fits from 0x200 to the end of memory, or it is refused. -/
theorem romLoadCopiesVerbatimOrRefuses : Obligations.RomLoadCopiesVerbatimOrRefuses := by
  intro h rom hphase
  constructor
  · intro hlen
    rw [transact_loadRom_of_some h hphase (loadRom_of_le hlen)]
    refine ⟨rfl, rfl, fun j b hj => ?_, fun a ha => readByte_writeBytes_outside _ _ ha, rfl, fun _ _ => rfl,
      unchanged_writeMemory h.engine _⟩
    obtain ⟨hlt, rfl⟩ := List.getElem?_eq_some_iff.1 hj
    exact Memory.readByte_writeBytes_inside rom _ _ hlt
  · intro hlen
    rw [transact_loadRom_of_none h hphase (loadRom_of_gt hlen)]
    exact ⟨rfl, rfl, transact_step_of_unstartable _ rfl⟩

/-- Settles O58: the two writes are the decremented timers. -/
theorem tickDecrementsBothTimersDownToZero : Obligations.TickDecrementsBothTimersDownToZero := by
  intro h
  exact ⟨tickTimer_toNat _, tickTimer_toNat _, rfl, fun _ _ => rfl,
    { unchanged_refl [.delay, .sound] h.engine with
      delay := fun hd => absurd (List.mem_cons_self ..) hd
      sound := fun hs => absurd (by simp) hs }⟩

/-- Settles O59: the latch holds four bits. -/
theorem pressReplacesAndReleaseClearsTheKey : Obligations.PressReplacesAndReleaseClearsTheKey := by
  intro h k
  refine ⟨fun hk => ⟨BitVec.ofNat 4 k, ?_, ?_⟩, fun hk => ?_, rfl⟩
  · rw [BitVec.toNat_ofNat]
    omega
  · simp only [transact, State.press, if_pos hk]
  · simp only [transact, State.press, if_neg (Nat.not_le.2 hk)]

/-- Settles O60: byte `j` of the answer is buffer byte `row * 8 + col / 8 + j`. -/
theorem hostReadReturnsTheBufferBytes : Obligations.HostReadReturnsTheBufferBytes := by
  intro h row col len
  refine ⟨fun hin => ⟨_, transact_read_of_some h (dispRead_of_le hin), ?_, ?_⟩,
    fun hout => transact_read_of_none h (dispRead_of_gt hout)⟩
  · rw [List.length_take, List.length_drop, Vector.length_toList]
    omega
  · intro j b byte r c hj hb hpos
    obtain ⟨hlt, rfl⟩ := List.getElem?_eq_some_iff.1 hj
    have hk : row * 8 + col / 8 + j < 256 := by
      rw [List.length_take] at hlt
      omega
    rw [pix_eq_getLsbD hk hb hpos, List.getElem_take, List.getElem_drop, Vector.getElem_toList]

end Sys2Proof.Machine
end
